-- ==== Sys2Proof/Word.lean ====
section
/-! DEFINITION. The widths the spec gives (00_scope.md R5, R11): bytes, halfwords, words, one vector register, one accumulator and one condition register of one slice, and the numbers that select registers. -/

namespace Sys2Proof

/-- 8 bit. -/
abbrev Byte := BitVec 8

/-- 16 bit. -/
abbrev Half := BitVec 16

/-- 32 bit: `XLEN`, an address, an instruction word, a double-precision halfword element. -/
abbrev Word := BitVec 32

/-- One vector register of one slice, 128 bit (10_state.md R32). -/
abbrev VecBits := BitVec 128

/-- The accumulator of one slice, 256 bit (10_state.md R34). -/
abbrev AccBits := BitVec 256

/-- The vector condition register of one slice, 96 bit (10_state.md R36). -/
abbrev VcrBits := BitVec 96

/-- The number of a vector register, VR0 to VR31 (30_encoding.md R94). -/
abbrev VReg := Fin 32

/-- The number of a general-purpose register, x[0] to x[31] (30_encoding.md R94). -/
abbrev GReg := Fin 32

end Sys2Proof
end

