-- ==== Sys2Proof/Syntax.lean ====
section
/-! DEFINITION. The syntax: one constructor for each of the 53 rows of spec/opcode_table.json, in the table's order, carrying the fields the instruction uses (30_encoding.md R96). A field an instruction does not use is no part of it (R98). -/

namespace Sys2Proof

/-- The condition of the C field: 0 always, 1 gt, 2 lt, 3 eq (00_scope.md R15, 30_encoding.md R93). -/
inductive Cond where
  | always
  | gt
  | lt
  | eq
deriving DecidableEq, Repr

/-- The three instruction formats (30_encoding.md R92). -/
inductive Format where
  | V
  | G
  | S
deriving DecidableEq, Repr

/-- The 53 instructions. Register fields are numbers 0 to 31 (30_encoding.md R94). `amount` is the VRB field of the shifts and `n` the C field of the packs, read as numbers (R95). The unpacks carry all four fields, because which of them they use is not defined (44_permute.md R206). -/
inductive Instr where
  /-- R121, XO 12. -/
  | fxvmahm (vrt vra vrb : VReg) (c : Cond)
  /-- R141, XO 13. -/
  | fxvmabm (vrt vra vrb : VReg) (c : Cond)
  /-- R151, XO 14. -/
  | fxvmtacb (vra : VReg) (c : Cond)
  /-- R131, XO 15. -/
  | fxvmtach (vra : VReg) (c : Cond)
  /-- R161, XO 28. -/
  | fxvmahfs (vrt vra vrb : VReg) (c : Cond)
  /-- R181, XO 29. -/
  | fxvmabfs (vrt vra vrb : VReg) (c : Cond)
  /-- R182, XO 30. -/
  | fxvmtacbf (vra : VReg) (c : Cond)
  /-- R162, XO 31. -/
  | fxvmtachf (vra : VReg) (c : Cond)
  /-- R122, XO 44. -/
  | fxvmatachm (vra vrb : VReg) (c : Cond)
  /-- R142, XO 45. -/
  | fxvmatacbm (vra vrb : VReg) (c : Cond)
  /-- R163, XO 60. -/
  | fxvmatachfs (vra vrb : VReg) (c : Cond)
  /-- R183, XO 61. -/
  | fxvmatacbfs (vra vrb : VReg) (c : Cond)
  /-- R123, XO 76. -/
  | fxvmulhm (vrt vra vrb : VReg) (c : Cond)
  /-- R143, XO 77. -/
  | fxvmulbm (vrt vra vrb : VReg) (c : Cond)
  /-- R164, XO 92. -/
  | fxvmulhfs (vrt vra vrb : VReg) (c : Cond)
  /-- R184, XO 93. -/
  | fxvmulbfs (vrt vra vrb : VReg) (c : Cond)
  /-- R124, XO 108. -/
  | fxvmultachm (vra vrb : VReg) (c : Cond)
  /-- R144, XO 109. -/
  | fxvmultacbm (vra vrb : VReg) (c : Cond)
  /-- R165, XO 124. -/
  | fxvmultachfs (vra vrb : VReg) (c : Cond)
  /-- R185, XO 125. -/
  | fxvmultacbfs (vra vrb : VReg) (c : Cond)
  /-- R224, XO 236. -/
  | fxvinx (vrt : VReg) (ra rb : GReg)
  /-- R204, XO 239. -/
  | fxvpckbu (vrt vra vrb : VReg) (n : Nat)
  /-- R225, XO 252. -/
  | fxvoutx (vrt : VReg) (ra rb : GReg)
  /-- R205, XO 255. -/
  | fxvpckbl (vrt vra vrb : VReg) (n : Nat)
  /-- R132, XO 268. -/
  | fxvsplath (vrt : VReg) (ra : GReg)
  /-- R152, XO 269. -/
  | fxvsplatb (vrt : VReg) (ra : GReg)
  /-- R207, XO 271. -/
  | fxvupckbr (vrt vra vrb : VReg) (n : Nat)
  /-- R206, XO 287. -/
  | fxvupckbl (vrt vra vrb : VReg) (n : Nat)
  /-- R130, XO 300. -/
  | fxvcmphm (vra : VReg)
  /-- R150, XO 301. -/
  | fxvcmpb (vra : VReg)
  /-- R202, XO 316. -/
  | fxvshh (vrt vra : VReg) (amount : Nat)
  /-- R203, XO 317. -/
  | fxvshb (vrt vra : VReg) (amount : Nat)
  /-- R201, XO 319. -/
  | fxvsel (vrt vra vrb : VReg) (c : Cond)
  /-- R125, XO 332. -/
  | fxvsubhm (vrt vra vrb : VReg) (c : Cond)
  /-- R145, XO 333. -/
  | fxvsubbm (vrt vra vrb : VReg) (c : Cond)
  /-- R166, XO 348. -/
  | fxvsubhfs (vrt vra vrb : VReg) (c : Cond)
  /-- R186, XO 349. -/
  | fxvsubbfs (vrt vra vrb : VReg) (c : Cond)
  /-- R126, XO 364. -/
  | fxvaddactachm (vra : VReg) (c : Cond)
  /-- R146, XO 365. -/
  | fxvaddactacb (vra : VReg) (c : Cond)
  /-- R167, XO 380. -/
  | fxvaddactachf (vra : VReg) (c : Cond)
  /-- R187, XO 381. -/
  | fxvaddactacbf (vra : VReg) (c : Cond)
  /-- R128, XO 396. -/
  | fxvaddachm (vrt vra : VReg) (c : Cond)
  /-- R148, XO 397. -/
  | fxvaddacbm (vrt vra : VReg) (c : Cond)
  /-- R168, XO 412. -/
  | fxvaddachfs (vrt vra : VReg) (c : Cond)
  /-- R188, XO 413. -/
  | fxvaddacbfs (vrt vra : VReg) (c : Cond)
  /-- R127, XO 428. -/
  | fxvaddtachm (vra vrb : VReg) (c : Cond)
  /-- R147, XO 429. -/
  | fxvaddtacb (vra vrb : VReg) (c : Cond)
  /-- R129, XO 460. -/
  | fxvaddhm (vrt vra vrb : VReg) (c : Cond)
  /-- R149, XO 461. -/
  | fxvaddbm (vrt vra vrb : VReg) (c : Cond)
  /-- R169, XO 476. -/
  | fxvaddhfs (vrt vra vrb : VReg) (c : Cond)
  /-- R189, XO 477. -/
  | fxvaddbfs (vrt vra vrb : VReg) (c : Cond)
  /-- R222, XO 492. -/
  | fxvlax (vrt : VReg) (ra rb : GReg)
  /-- R223, XO 508. -/
  | fxvstax (vrt : VReg) (ra rb : GReg)
deriving DecidableEq, Repr

/-- The format of an instruction: G for the four load/store instructions, S for the two splats, V for the other 47 (30_encoding.md R90, R92). -/
def Instr.format : Instr → Format
  | .fxvmahm .. => .V
  | .fxvmabm .. => .V
  | .fxvmtacb .. => .V
  | .fxvmtach .. => .V
  | .fxvmahfs .. => .V
  | .fxvmabfs .. => .V
  | .fxvmtacbf .. => .V
  | .fxvmtachf .. => .V
  | .fxvmatachm .. => .V
  | .fxvmatacbm .. => .V
  | .fxvmatachfs .. => .V
  | .fxvmatacbfs .. => .V
  | .fxvmulhm .. => .V
  | .fxvmulbm .. => .V
  | .fxvmulhfs .. => .V
  | .fxvmulbfs .. => .V
  | .fxvmultachm .. => .V
  | .fxvmultacbm .. => .V
  | .fxvmultachfs .. => .V
  | .fxvmultacbfs .. => .V
  | .fxvinx .. => .G
  | .fxvpckbu .. => .V
  | .fxvoutx .. => .G
  | .fxvpckbl .. => .V
  | .fxvsplath .. => .S
  | .fxvsplatb .. => .S
  | .fxvupckbr .. => .V
  | .fxvupckbl .. => .V
  | .fxvcmphm .. => .V
  | .fxvcmpb .. => .V
  | .fxvshh .. => .V
  | .fxvshb .. => .V
  | .fxvsel .. => .V
  | .fxvsubhm .. => .V
  | .fxvsubbm .. => .V
  | .fxvsubhfs .. => .V
  | .fxvsubbfs .. => .V
  | .fxvaddactachm .. => .V
  | .fxvaddactacb .. => .V
  | .fxvaddactachf .. => .V
  | .fxvaddactacbf .. => .V
  | .fxvaddachm .. => .V
  | .fxvaddacbm .. => .V
  | .fxvaddachfs .. => .V
  | .fxvaddacbfs .. => .V
  | .fxvaddtachm .. => .V
  | .fxvaddtacb .. => .V
  | .fxvaddhm .. => .V
  | .fxvaddbm .. => .V
  | .fxvaddhfs .. => .V
  | .fxvaddbfs .. => .V
  | .fxvlax .. => .G
  | .fxvstax .. => .G

end Sys2Proof
end

