-- ==== Sys2Proof/WellFormed.lean ====
section
/-! DEFINITION. Which instruction terms stand for an instruction word. Register numbers are bounded by their type and all 32 are legal in every position (30_encoding.md R94), and a condition is one of four by its type (R93); what is left to check are the numbers held as plain naturals: the five-bit shift amount and the two-bit C number (R95). -/

namespace Sys2Proof

/-- The instruction fits its fields: the shift amount of fxvshh and fxvshb is below 32, the C number of the packs and unpacks below 4 (30_encoding.md R95). -/
def Instr.wellFormed : Instr → Bool
  | .fxvmahm .. => true
  | .fxvmabm .. => true
  | .fxvmtacb .. => true
  | .fxvmtach .. => true
  | .fxvmahfs .. => true
  | .fxvmabfs .. => true
  | .fxvmtacbf .. => true
  | .fxvmtachf .. => true
  | .fxvmatachm .. => true
  | .fxvmatacbm .. => true
  | .fxvmatachfs .. => true
  | .fxvmatacbfs .. => true
  | .fxvmulhm .. => true
  | .fxvmulbm .. => true
  | .fxvmulhfs .. => true
  | .fxvmulbfs .. => true
  | .fxvmultachm .. => true
  | .fxvmultacbm .. => true
  | .fxvmultachfs .. => true
  | .fxvmultacbfs .. => true
  | .fxvinx .. => true
  | .fxvpckbu _ _ _ n => decide (n < 4)
  | .fxvoutx .. => true
  | .fxvpckbl _ _ _ n => decide (n < 4)
  | .fxvsplath .. => true
  | .fxvsplatb .. => true
  | .fxvupckbr _ _ _ n => decide (n < 4)
  | .fxvupckbl _ _ _ n => decide (n < 4)
  | .fxvcmphm .. => true
  | .fxvcmpb .. => true
  | .fxvshh _ _ amount => decide (amount < 32)
  | .fxvshb _ _ amount => decide (amount < 32)
  | .fxvsel .. => true
  | .fxvsubhm .. => true
  | .fxvsubbm .. => true
  | .fxvsubhfs .. => true
  | .fxvsubbfs .. => true
  | .fxvaddactachm .. => true
  | .fxvaddactacb .. => true
  | .fxvaddactachf .. => true
  | .fxvaddactacbf .. => true
  | .fxvaddachm .. => true
  | .fxvaddacbm .. => true
  | .fxvaddachfs .. => true
  | .fxvaddacbfs .. => true
  | .fxvaddtachm .. => true
  | .fxvaddtacb .. => true
  | .fxvaddhm .. => true
  | .fxvaddbm .. => true
  | .fxvaddhfs .. => true
  | .fxvaddbfs .. => true
  | .fxvlax .. => true
  | .fxvstax .. => true

end Sys2Proof
end

