-- ==== Sys2Proof/Decode.lean ====
section
/-! DEFINITION. Decoding and encoding of the instruction word, from the layout of 30_encoding.md R91 and the opcode map of R96. The layout stands in one place (`FXV_FORMAT` of the spec): `wordFields` reads it and `wordOf` writes it. Its source is the spec's decision D1 (notes/assumptions/7.md, PRESUMED). -/

namespace Sys2Proof

/-- Why a word or a byte sequence spells no FXV instruction. -/
inductive DecodeError where
  /-- The primary opcode is not 4 (30_encoding.md R99). -/
  | notFxv
  /-- The primary opcode is 4 and the XO is not one of the 53 (30_encoding.md R99). -/
  | unassignedXo
  /-- Fewer than four bytes are left: no word (30_encoding.md R101). -/
  | tooShort
deriving DecidableEq, Repr

/-- The fields of a word (30_encoding.md R91). `vra` is also RA, `vrb` also RB and the shift amount. -/
structure Fields where
  opcd : Nat
  vrt : Fin 32
  vra : Fin 32
  vrb : Fin 32
  xo : Nat
  c : Nat
deriving DecidableEq, Repr

/-- The fields at the positions of 30_encoding.md R91: OPCD 31:26, VRT 25:21, VRA 20:16, VRB 15:11, XO 10:2, C 1:0. -/
def wordFields (w : Word) : Fields where
  opcd := w.toNat / 2 ^ 26 % 64
  vrt := Fin.ofNat 32 (w.toNat / 2 ^ 21)
  vra := Fin.ofNat 32 (w.toNat / 2 ^ 16)
  vrb := Fin.ofNat 32 (w.toNat / 2 ^ 11)
  xo := w.toNat / 2 ^ 2 % 512
  c := w.toNat % 4

/-- The condition a C field names (30_encoding.md R93). -/
def condOfField (c : Nat) : Cond :=
  match c with
  | 0 => .always
  | 1 => .gt
  | 2 => .lt
  | _ => .eq

/-- The C field that names a condition (30_encoding.md R93). -/
def condField : Cond → Nat
  | .always => 0
  | .gt => 1
  | .lt => 2
  | .eq => 3

/-- The condition in the C field of a word. -/
def Fields.cond (f : Fields) : Cond := condOfField f.c

/-- One row of the opcode map. -/
structure OpRow where
  mnemonic : String
  xo : Nat
  build : Fields → Instr

/-- The opcode map, 30_encoding.md R96, in order of XO. -/
def opTable : List OpRow := [
  ⟨"fxvmahm", 12, fun f => .fxvmahm f.vrt f.vra f.vrb f.cond⟩,
  ⟨"fxvmabm", 13, fun f => .fxvmabm f.vrt f.vra f.vrb f.cond⟩,
  ⟨"fxvmtacb", 14, fun f => .fxvmtacb f.vra f.cond⟩,
  ⟨"fxvmtach", 15, fun f => .fxvmtach f.vra f.cond⟩,
  ⟨"fxvmahfs", 28, fun f => .fxvmahfs f.vrt f.vra f.vrb f.cond⟩,
  ⟨"fxvmabfs", 29, fun f => .fxvmabfs f.vrt f.vra f.vrb f.cond⟩,
  ⟨"fxvmtacbf", 30, fun f => .fxvmtacbf f.vra f.cond⟩,
  ⟨"fxvmtachf", 31, fun f => .fxvmtachf f.vra f.cond⟩,
  ⟨"fxvmatachm", 44, fun f => .fxvmatachm f.vra f.vrb f.cond⟩,
  ⟨"fxvmatacbm", 45, fun f => .fxvmatacbm f.vra f.vrb f.cond⟩,
  ⟨"fxvmatachfs", 60, fun f => .fxvmatachfs f.vra f.vrb f.cond⟩,
  ⟨"fxvmatacbfs", 61, fun f => .fxvmatacbfs f.vra f.vrb f.cond⟩,
  ⟨"fxvmulhm", 76, fun f => .fxvmulhm f.vrt f.vra f.vrb f.cond⟩,
  ⟨"fxvmulbm", 77, fun f => .fxvmulbm f.vrt f.vra f.vrb f.cond⟩,
  ⟨"fxvmulhfs", 92, fun f => .fxvmulhfs f.vrt f.vra f.vrb f.cond⟩,
  ⟨"fxvmulbfs", 93, fun f => .fxvmulbfs f.vrt f.vra f.vrb f.cond⟩,
  ⟨"fxvmultachm", 108, fun f => .fxvmultachm f.vra f.vrb f.cond⟩,
  ⟨"fxvmultacbm", 109, fun f => .fxvmultacbm f.vra f.vrb f.cond⟩,
  ⟨"fxvmultachfs", 124, fun f => .fxvmultachfs f.vra f.vrb f.cond⟩,
  ⟨"fxvmultacbfs", 125, fun f => .fxvmultacbfs f.vra f.vrb f.cond⟩,
  ⟨"fxvinx", 236, fun f => .fxvinx f.vrt f.vra f.vrb⟩,
  ⟨"fxvpckbu", 239, fun f => .fxvpckbu f.vrt f.vra f.vrb f.c⟩,
  ⟨"fxvoutx", 252, fun f => .fxvoutx f.vrt f.vra f.vrb⟩,
  ⟨"fxvpckbl", 255, fun f => .fxvpckbl f.vrt f.vra f.vrb f.c⟩,
  ⟨"fxvsplath", 268, fun f => .fxvsplath f.vrt f.vra⟩,
  ⟨"fxvsplatb", 269, fun f => .fxvsplatb f.vrt f.vra⟩,
  ⟨"fxvupckbr", 271, fun f => .fxvupckbr f.vrt f.vra f.vrb f.c⟩] ++ [
  ⟨"fxvupckbl", 287, fun f => .fxvupckbl f.vrt f.vra f.vrb f.c⟩,
  ⟨"fxvcmphm", 300, fun f => .fxvcmphm f.vra⟩,
  ⟨"fxvcmpb", 301, fun f => .fxvcmpb f.vra⟩,
  ⟨"fxvshh", 316, fun f => .fxvshh f.vrt f.vra f.vrb.val⟩,
  ⟨"fxvshb", 317, fun f => .fxvshb f.vrt f.vra f.vrb.val⟩,
  ⟨"fxvsel", 319, fun f => .fxvsel f.vrt f.vra f.vrb f.cond⟩,
  ⟨"fxvsubhm", 332, fun f => .fxvsubhm f.vrt f.vra f.vrb f.cond⟩,
  ⟨"fxvsubbm", 333, fun f => .fxvsubbm f.vrt f.vra f.vrb f.cond⟩,
  ⟨"fxvsubhfs", 348, fun f => .fxvsubhfs f.vrt f.vra f.vrb f.cond⟩,
  ⟨"fxvsubbfs", 349, fun f => .fxvsubbfs f.vrt f.vra f.vrb f.cond⟩,
  ⟨"fxvaddactachm", 364, fun f => .fxvaddactachm f.vra f.cond⟩,
  ⟨"fxvaddactacb", 365, fun f => .fxvaddactacb f.vra f.cond⟩,
  ⟨"fxvaddactachf", 380, fun f => .fxvaddactachf f.vra f.cond⟩,
  ⟨"fxvaddactacbf", 381, fun f => .fxvaddactacbf f.vra f.cond⟩,
  ⟨"fxvaddachm", 396, fun f => .fxvaddachm f.vrt f.vra f.cond⟩,
  ⟨"fxvaddacbm", 397, fun f => .fxvaddacbm f.vrt f.vra f.cond⟩,
  ⟨"fxvaddachfs", 412, fun f => .fxvaddachfs f.vrt f.vra f.cond⟩,
  ⟨"fxvaddacbfs", 413, fun f => .fxvaddacbfs f.vrt f.vra f.cond⟩,
  ⟨"fxvaddtachm", 428, fun f => .fxvaddtachm f.vra f.vrb f.cond⟩,
  ⟨"fxvaddtacb", 429, fun f => .fxvaddtacb f.vra f.vrb f.cond⟩,
  ⟨"fxvaddhm", 460, fun f => .fxvaddhm f.vrt f.vra f.vrb f.cond⟩,
  ⟨"fxvaddbm", 461, fun f => .fxvaddbm f.vrt f.vra f.vrb f.cond⟩,
  ⟨"fxvaddhfs", 476, fun f => .fxvaddhfs f.vrt f.vra f.vrb f.cond⟩,
  ⟨"fxvaddbfs", 477, fun f => .fxvaddbfs f.vrt f.vra f.vrb f.cond⟩,
  ⟨"fxvlax", 492, fun f => .fxvlax f.vrt f.vra f.vrb⟩,
  ⟨"fxvstax", 508, fun f => .fxvstax f.vrt f.vra f.vrb⟩]

/-- The row of an XO, if it is assigned. -/
def opRow? (xo : Nat) : Option OpRow := opTable.find? fun r => r.xo == xo

/-- Decoding of one word: primary opcode 4 and an assigned XO; the other fields are read without any further condition (30_encoding.md R97, R98). -/
def decodeWord (w : Word) : Except DecodeError Instr :=
  if (wordFields w).opcd = 4 then
    match opRow? (wordFields w).xo with
    | some r => .ok (r.build (wordFields w))
    | none => .error .unassignedXo
  else .error .notFxv

/-- The word in four bytes, the byte at the lowest address, which holds the primary opcode, first (20_memory.md R63). -/
def wordOfBytes (b0 b1 b2 b3 : Byte) : Word := (b0 ++ b1 : Half) ++ (b2 ++ b3 : Half)

/-- The bytes of a word as an instruction fetch finds them, lowest address first (20_memory.md R63). -/
def bytesOfWord (w : Word) : List Byte :=
  [w.extractLsb' 24 8, w.extractLsb' 16 8, w.extractLsb' 8 8, w.extractLsb' 0 8]

/-- Decoding of a byte sequence: the instruction at its front and the bytes after it. Total on any bytes; every instruction is four bytes long (30_encoding.md R101). -/
def decode (bs : List Byte) : Except DecodeError (Instr × List Byte) :=
  match bs with
  | b0 :: b1 :: b2 :: b3 :: rest =>
    match decodeWord (wordOfBytes b0 b1 b2 b3) with
    | .ok i => .ok (i, rest)
    | .error e => .error e
  | _ => .error .tooShort

/-- The extended opcode of an instruction, 30_encoding.md R96. -/
def Instr.xo : Instr → Nat
  | .fxvmahm .. => 12
  | .fxvmabm .. => 13
  | .fxvmtacb .. => 14
  | .fxvmtach .. => 15
  | .fxvmahfs .. => 28
  | .fxvmabfs .. => 29
  | .fxvmtacbf .. => 30
  | .fxvmtachf .. => 31
  | .fxvmatachm .. => 44
  | .fxvmatacbm .. => 45
  | .fxvmatachfs .. => 60
  | .fxvmatacbfs .. => 61
  | .fxvmulhm .. => 76
  | .fxvmulbm .. => 77
  | .fxvmulhfs .. => 92
  | .fxvmulbfs .. => 93
  | .fxvmultachm .. => 108
  | .fxvmultacbm .. => 109
  | .fxvmultachfs .. => 124
  | .fxvmultacbfs .. => 125
  | .fxvinx .. => 236
  | .fxvpckbu .. => 239
  | .fxvoutx .. => 252
  | .fxvpckbl .. => 255
  | .fxvsplath .. => 268
  | .fxvsplatb .. => 269
  | .fxvupckbr .. => 271
  | .fxvupckbl .. => 287
  | .fxvcmphm .. => 300
  | .fxvcmpb .. => 301
  | .fxvshh .. => 316
  | .fxvshb .. => 317
  | .fxvsel .. => 319
  | .fxvsubhm .. => 332
  | .fxvsubbm .. => 333
  | .fxvsubhfs .. => 348
  | .fxvsubbfs .. => 349
  | .fxvaddactachm .. => 364
  | .fxvaddactacb .. => 365
  | .fxvaddactachf .. => 380
  | .fxvaddactacbf .. => 381
  | .fxvaddachm .. => 396
  | .fxvaddacbm .. => 397
  | .fxvaddachfs .. => 412
  | .fxvaddacbfs .. => 413
  | .fxvaddtachm .. => 428
  | .fxvaddtacb .. => 429
  | .fxvaddhm .. => 460
  | .fxvaddbm .. => 461
  | .fxvaddhfs .. => 476
  | .fxvaddbfs .. => 477
  | .fxvlax .. => 492
  | .fxvstax .. => 508

/-- The numbers an assembler writes into the VRT, VRA, VRB and C fields; 0 in a field the instruction does not use (30_encoding.md R98, R102). -/
def Instr.fieldNumbers : Instr → Nat × Nat × Nat × Nat
  | .fxvmahm vrt vra vrb c => (vrt.val, vra.val, vrb.val, condField c)
  | .fxvmabm vrt vra vrb c => (vrt.val, vra.val, vrb.val, condField c)
  | .fxvmtacb vra c => (0, vra.val, 0, condField c)
  | .fxvmtach vra c => (0, vra.val, 0, condField c)
  | .fxvmahfs vrt vra vrb c => (vrt.val, vra.val, vrb.val, condField c)
  | .fxvmabfs vrt vra vrb c => (vrt.val, vra.val, vrb.val, condField c)
  | .fxvmtacbf vra c => (0, vra.val, 0, condField c)
  | .fxvmtachf vra c => (0, vra.val, 0, condField c)
  | .fxvmatachm vra vrb c => (0, vra.val, vrb.val, condField c)
  | .fxvmatacbm vra vrb c => (0, vra.val, vrb.val, condField c)
  | .fxvmatachfs vra vrb c => (0, vra.val, vrb.val, condField c)
  | .fxvmatacbfs vra vrb c => (0, vra.val, vrb.val, condField c)
  | .fxvmulhm vrt vra vrb c => (vrt.val, vra.val, vrb.val, condField c)
  | .fxvmulbm vrt vra vrb c => (vrt.val, vra.val, vrb.val, condField c)
  | .fxvmulhfs vrt vra vrb c => (vrt.val, vra.val, vrb.val, condField c)
  | .fxvmulbfs vrt vra vrb c => (vrt.val, vra.val, vrb.val, condField c)
  | .fxvmultachm vra vrb c => (0, vra.val, vrb.val, condField c)
  | .fxvmultacbm vra vrb c => (0, vra.val, vrb.val, condField c)
  | .fxvmultachfs vra vrb c => (0, vra.val, vrb.val, condField c)
  | .fxvmultacbfs vra vrb c => (0, vra.val, vrb.val, condField c)
  | .fxvinx vrt ra rb => (vrt.val, ra.val, rb.val, 0)
  | .fxvpckbu vrt vra vrb n => (vrt.val, vra.val, vrb.val, n)
  | .fxvoutx vrt ra rb => (vrt.val, ra.val, rb.val, 0)
  | .fxvpckbl vrt vra vrb n => (vrt.val, vra.val, vrb.val, n)
  | .fxvsplath vrt ra => (vrt.val, ra.val, 0, 0)
  | .fxvsplatb vrt ra => (vrt.val, ra.val, 0, 0)
  | .fxvupckbr vrt vra vrb n => (vrt.val, vra.val, vrb.val, n)
  | .fxvupckbl vrt vra vrb n => (vrt.val, vra.val, vrb.val, n)
  | .fxvcmphm vra => (0, vra.val, 0, 0)
  | .fxvcmpb vra => (0, vra.val, 0, 0)
  | .fxvshh vrt vra amount => (vrt.val, vra.val, amount, 0)
  | .fxvshb vrt vra amount => (vrt.val, vra.val, amount, 0)
  | .fxvsel vrt vra vrb c => (vrt.val, vra.val, vrb.val, condField c)
  | .fxvsubhm vrt vra vrb c => (vrt.val, vra.val, vrb.val, condField c)
  | .fxvsubbm vrt vra vrb c => (vrt.val, vra.val, vrb.val, condField c)
  | .fxvsubhfs vrt vra vrb c => (vrt.val, vra.val, vrb.val, condField c)
  | .fxvsubbfs vrt vra vrb c => (vrt.val, vra.val, vrb.val, condField c)
  | .fxvaddactachm vra c => (0, vra.val, 0, condField c)
  | .fxvaddactacb vra c => (0, vra.val, 0, condField c)
  | .fxvaddactachf vra c => (0, vra.val, 0, condField c)
  | .fxvaddactacbf vra c => (0, vra.val, 0, condField c)
  | .fxvaddachm vrt vra c => (vrt.val, vra.val, 0, condField c)
  | .fxvaddacbm vrt vra c => (vrt.val, vra.val, 0, condField c)
  | .fxvaddachfs vrt vra c => (vrt.val, vra.val, 0, condField c)
  | .fxvaddacbfs vrt vra c => (vrt.val, vra.val, 0, condField c)
  | .fxvaddtachm vra vrb c => (0, vra.val, vrb.val, condField c)
  | .fxvaddtacb vra vrb c => (0, vra.val, vrb.val, condField c)
  | .fxvaddhm vrt vra vrb c => (vrt.val, vra.val, vrb.val, condField c)
  | .fxvaddbm vrt vra vrb c => (vrt.val, vra.val, vrb.val, condField c)
  | .fxvaddhfs vrt vra vrb c => (vrt.val, vra.val, vrb.val, condField c)
  | .fxvaddbfs vrt vra vrb c => (vrt.val, vra.val, vrb.val, condField c)
  | .fxvlax vrt ra rb => (vrt.val, ra.val, rb.val, 0)
  | .fxvstax vrt ra rb => (vrt.val, ra.val, rb.val, 0)

/-- `word = 4 * 2^26 + VRT * 2^21 + VRA * 2^16 + VRB * 2^11 + XO * 2^2 + C` (30_encoding.md R91). -/
def wordOf (vrt vra vrb xo c : Nat) : Word :=
  BitVec.ofNat 32 (4 * 2 ^ 26 + vrt * 2 ^ 21 + vra * 2 ^ 16 + vrb * 2 ^ 11 + xo * 2 ^ 2 + c)

/-- The word of a well-formed instruction (30_encoding.md R91, R96, R98). -/
def encode (i : Instr) : Word :=
  wordOf i.fieldNumbers.1 i.fieldNumbers.2.1 i.fieldNumbers.2.2.1 i.xo i.fieldNumbers.2.2.2

/-- The four bytes of a well-formed instruction in the program text. -/
def encodeBytes (i : Instr) : List Byte := bytesOfWord (encode i)

/-- The instruction the decoder reads from the word whose low `nbits` bits are those of `w` and whose other bits are 0, laid out as four bytes of the program text. -/
def decodeTableWord (nbits w : Nat) : Option Instr :=
  match decode (bytesOfWord (BitVec.ofNat 32 (w % 2 ^ nbits))) with
  | .ok (i, _) => some i
  | .error _ => none

end Sys2Proof
end

