-- ==== Sys2Proof/Machine/Lanes.lean ====
section
/-! DEFINITION. Elements of registers. The i-th of n equal parts of a register, counted from the left, part 0 the most significant (00_scope.md R7, R8): halfwords and bytes of a vector register (10_state.md R33), words and halfwords of the accumulator (R35), both pairs being views of the same bits. -/

namespace Sys2Proof.Machine

/-- The part of `w` bit number `i` from the left (00_scope.md R7). -/
def lane (w : Nat) {m : Nat} (v : BitVec m) (i : Nat) : BitVec w :=
  v.extractLsb' (m - w * (i + 1)) w

/-- The register whose parts are `f 0`, `f 1`, … from the left. -/
def ofLanes (w : Nat) : (n : Nat) → (Nat → BitVec w) → BitVec (w * n)
  | 0, _ => 0#0
  | n + 1, f => (ofLanes w n f ++ f n : BitVec (w * n + w))

/-- `VR.h[i]`: halfword element i, 0 to 7, of a vector register (00_scope.md R11). -/
def halfOf (v : VecBits) (i : Nat) : Half := lane 16 v i

/-- `VR.b[j]`: byte element j, 0 to 15, of a vector register (00_scope.md R11). -/
def byteOf (v : VecBits) (j : Nat) : Byte := lane 8 v j

/-- `ACC.w[i]`: word element i, 0 to 7, of the accumulator (00_scope.md R11). -/
def accWordOf (v : AccBits) (i : Nat) : Word := lane 32 v i

/-- `ACC.h[j]`: halfword element j, 0 to 15, of the accumulator (00_scope.md R11). -/
def accHalfOf (v : AccBits) (j : Nat) : Half := lane 16 v j

/-- The vector register with the given halfword elements. -/
def ofHalves (f : Nat → Half) : VecBits := ofLanes 16 8 f

/-- The vector register with the given byte elements. -/
def ofBytes (f : Nat → Byte) : VecBits := ofLanes 8 16 f

/-- The accumulator with the given word elements. -/
def ofAccWords (f : Nat → Word) : AccBits := ofLanes 32 8 f

/-- The accumulator with the given halfword elements. -/
def ofAccHalves (f : Nat → Half) : AccBits := ofLanes 16 16 f

end Sys2Proof.Machine
end

