-- ==== Sys2Proof/Config.lean ====
section
/-! DEFINITION. What an implementation or a platform fixes: the parameters of 00_scope.md R5 as plain data (State holds one record of them, so a statement over all states holds for every value), and the free values the spec leaves open, as constants without a body. -/

namespace Sys2Proof

namespace Config

/-- `MTAC_EXTEND`: how fxvmtach and fxvmtacb fill the upper half of an accumulator element (92_eei_decisions.md D8). -/
inductive Extend where
  /-- The default of the spec. -/
  | sign
  | zero
deriving DecidableEq, Repr

/-- `FRACT_ALIGN`: where `sign_extend` puts a single-precision element in the saturating fractional add family (00_scope.md R18, D9). -/
inductive FractAlign where
  /-- The element in the upper half, the default of the spec. -/
  | left
  /-- Plain sign extension, the literal reading. -/
  | right
deriving DecidableEq, Repr

/-- `SUBFS_NEG`: the width at which fxvsubhfs and fxvsubbfs negate (92_eei_decisions.md D10). -/
inductive SubfsNeg where
  /-- On the integer, the default of the spec. -/
  | exact
  /-- At the width of the element. -/
  | wrap
deriving DecidableEq, Repr

/-- `VCR_HW_READ`: what a halfword-conditional instruction reads from a VCR field whose four bits differ (10_state.md R38, D11, 93_implementation_defined.md U1). -/
inductive VcrHwRead where
  /-- The spec's value: not stated. `Params.onGap` says what the model does. -/
  | unspecified
  /-- The AND of the four bits. -/
  | allBits
  /-- The OR of the four bits. -/
  | anyBit
  /-- The first of the four bits. -/
  | firstBit
deriving DecidableEq, Repr

/-- `PACK_MASK`: the constant fxvpckbl masks with (44_permute.md R205, D12). -/
inductive PackMask where
  /-- 0xffff, the literal text, the default of the spec. -/
  | wide
  /-- 0xff, what the prose needs. -/
  | narrow
  /-- One of the two, not known which: not yet fixed by evidence (93_implementation_defined.md U4). -/
  | unsettled
deriving DecidableEq, Repr

/-- `PCKBL_SECOND`: what fxvpckbl puts in the second half of its target (44_permute.md R205, D12). -/
inductive PckblSecond where
  /-- The upper bytes of VRB, the literal text, the default of the spec. -/
  | literal
  /-- VRB treated as VRA is. -/
  | symmetric
  /-- One of the two, not known which: not yet fixed by evidence (93_implementation_defined.md U4). -/
  | unsettled
deriving DecidableEq, Repr

/-- `UNUSED_FIELDS`: what becomes of a word with a nonzero field that its instruction does not use (30_encoding.md R98, D2, U8). -/
inductive UnusedFields where
  /-- The default of the spec. -/
  | ignore
  /-- The cautious alternative: refuse the word. -/
  | refuseNonzero
deriving DecidableEq, Repr

/-- `BYTE_ORDER` of main memory (20_memory.md R62, D16). -/
inductive ByteOrder where
  /-- The default of the spec. -/
  | big
  /-- The four bytes of each 32 bit word reversed. -/
  | little
deriving DecidableEq, Repr

/-- `FXV_MEM_ALIGN`: what the effective address of fxvlax and fxvstax must be a multiple of (20_memory.md R65, D17). -/
inductive MemAlign where
  /-- `16 * NUM_SLICES`, the default of the spec. -/
  | footprint
  /-- A relaxed value, in bytes. -/
  | bytes (n : Nat)
deriving DecidableEq, Repr

/-- What the model does where the spec leaves the VALUE of an instruction's effect open and treats it as a fault or a refusal (U1, U4, U5). -/
inductive OnGap where
  /-- The instruction runs and the open value is a free value (notes/assumptions/18.md, DESIGN CHOICE). -/
  | freeValue
  /-- The outcome of 60_exceptions.md R243: `fault(vcr_mixed)`, `refuse(pack_not_settled)`, `refuse(unpack_not_defined)`. -/
  | stop
deriving DecidableEq, Repr

/-- The parameters of 00_scope.md R5 that a model takes, and the model's own `onGap`. `NUM_SLICES` is the number of slices State holds. -/
structure Params where
  byteOrder : ByteOrder
  memAlign : MemAlign
  mtacExtend : Extend
  fractAlign : FractAlign
  subfsNeg : SubfsNeg
  vcrHwRead : VcrHwRead
  packMask : PackMask
  pckblSecond : PckblSecond
  unusedFields : UnusedFields
  onGap : OnGap
deriving DecidableEq, Repr

/-- The defaults of 00_scope.md R5. `packMask` and `pckblSecond` have the values of R5 and D12; `unsettled` is the value of a state that takes 44_permute.md R205 to leave them open until evidence fixes them (notes/assumptions/16.md). -/
def defaultParams : Params where
  byteOrder := .big
  memAlign := .footprint
  mtacExtend := .sign
  fractAlign := .left
  subfsNeg := .exact
  vcrHwRead := .unspecified
  packMask := .wide
  pckblSecond := .literal
  unusedFields := .ignore
  onGap := .freeValue

/-- Free value (U1): the condition a halfword-conditional instruction reads from a field whose bits differ, for the count of completed instructions, the slice, the condition, the VCR of the slice and the halfword element (notes/assumptions/14.md). -/
opaque mixedCondition (retired slice : Nat) (c : Cond) (vcr : VcrBits) (i : Nat) : Bool

/-- Free value (U4): whether the hardware's fxvpckbl masks with 0xff and not with 0xffff (notes/assumptions/16.md). -/
opaque packMaskIsNarrow : Bool

/-- Free value (U4): whether the hardware's fxvpckbl treats VRB as it treats VRA (notes/assumptions/16.md). -/
opaque pckblIsSymmetric : Bool

/-- Free value (U5): what fxvupckbl writes to VRT in one slice. It may depend on every field of the word, VRT too, and on every vector register of the slice; that it may depend on nothing else but the count of completed instructions and the slice's number is marked in notes/assumptions/17.md. -/
opaque unpackLeft (retired slice : Nat) (vrt vra vrb : VReg) (n : Nat) (file : Vector VecBits 32) : VecBits

/-- Free value (U5): what fxvupckbr writes to VRT in one slice, with the arguments of `unpackLeft` (notes/assumptions/17.md). -/
opaque unpackRight (retired slice : Nat) (vrt vra vrb : VReg) (n : Nat) (file : Vector VecBits 32) : VecBits

/-- One access to an IO location: its address and the 128 bit part of each slice, slice 0 first (00_scope.md R19, 20_memory.md R68). -/
inductive IoEvent where
  | read (addr : Word) (parts : List VecBits)
  | write (addr : Word) (parts : List VecBits)
deriving DecidableEq, Repr

/-- Free value (U16): the part of `slice` that the device behind IO location `addr` answers, after `retired` instructions and the accesses of `log` (20_memory.md R68; notes/assumptions/20.md). -/
opaque ioOracle (retired : Nat) (log : List IoEvent) (addr : Word) (slice : Nat) : VecBits

end Config

end Sys2Proof
end

