-- ==== Sys2Proof/Machine/State.lean ====
section
/-! DEFINITION. The state of the machine as plain data, what a step can end in, and the state after reset. -/

namespace Sys2Proof.Machine

/-- The state one slice owns: its copy of the vector register file, the accumulator and the condition register (10_state.md R31, R32, R34, R36). -/
structure Slice where
  vr : Vector VecBits 32
  acc : AccBits
  vcr : VcrBits
deriving DecidableEq, Repr

/-- A range of addresses, `base .. base + size - 1`. -/
structure Region where
  base : Nat
  size : Nat
deriving DecidableEq, Repr

/-- What the platform provides: the main-memory bytes that exist (the launch memory) and the IO locations that exist (20_memory.md R69). -/
structure Platform where
  ram : List Region
  io : List Region
deriving DecidableEq, Repr

/-- The program text: its bytes from `base` up. It is a parameter of the run and no part of the memory the machine mutates (20_memory.md R72, 70_reset_and_hazards.md R277). -/
structure ProgramText where
  base : Word
  bytes : List Byte
deriving DecidableEq, Repr

/-- Main memory: the bytes that differ from what an unlisted address reads as, addresses strictly rising (10_state.md R43; notes/assumptions/3.md). -/
abbrev Memory := List Host.Cell

/-- The whole state. `slices` holds NUM_SLICES slices, slice 0 first. `retired` counts completed instructions and is the model's own (notes/assumptions/19.md). -/
structure State where
  slices : List Slice
  gpr : Vector Word 32
  pc : Word
  mem : Memory
  ioLog : List Config.IoEvent
  text : ProgramText
  platform : Platform
  params : Config.Params
  retired : Nat
deriving DecidableEq, Repr

/-- The model's faults (00_scope.md R20, 60_exceptions.md R243). The architecture has none (R240). -/
inductive Fault where
  /-- `fault(vcr_mixed)`: a halfword-conditional instruction reads a VCR field whose four bits differ, with `VCR_HW_READ` unspecified and `onGap = stop`. Safe: the hardware may go on. -/
  | vcrMixed
deriving DecidableEq, Repr

/-- The model's refusals (00_scope.md R20, 60_exceptions.md R243). -/
inductive Refusal where
  /-- An arm of `exec` that has no meaning yet; raised by `exec` alone. Safe. -/
  | notModelled (mnemonic : String)
  /-- `step`: pc is the first address past the program text, so the run has ended and the state is final (70_reset_and_hazards.md R277). Safe. -/
  | runEnded
  /-- `step`: no whole word of the program text stands at pc (R276). Safe. -/
  | outsideText
  /-- `step`: the word's primary opcode is not 4, so it is a scalar instruction of Nux or none (30_encoding.md R99). Safe. -/
  | notFxv
  /-- `step`: `refuse(unassigned_xo)` (30_encoding.md R99). Safe. -/
  | unassignedXo
  /-- `step`: a field the instruction does not use is not 0, under `UNUSED_FIELDS = refuse_nonzero` (30_encoding.md R98). Safe. -/
  | unusedFieldNonzero
  /-- fxvpckbl under `onGap = stop` with PACK_MASK or PCKBL_SECOND unsettled: `refuse(pack_not_settled)` (44_permute.md R205). Safe. -/
  | packNotSettled
  /-- fxvupckbl and fxvupckbr under `onGap = stop`: `refuse(unpack_not_defined)` (44_permute.md R206, R207). Safe. -/
  | unpackNotDefined
  /-- fxvlax, fxvstax: `refuse(address_wrap)`, the footprint passes 2^32 (20_memory.md R70). Safe. -/
  | addressWrap
  /-- fxvlax, fxvstax: `refuse(misaligned_vector_access)` (20_memory.md R65). Safe. -/
  | misalignedVectorAccess
  /-- The four load/store instructions: `refuse(unmapped)`, a byte or an IO location that does not exist (20_memory.md R69). Safe. -/
  | unmapped
  /-- fxvstax: `refuse(store_to_code)`, the footprint meets the program text (20_memory.md R72). Safe. -/
  | storeToCode
  /-- Every instruction: `refuse(pc_wrap)`, pc + 4 passes 2^32 (10_state.md R41). Safe. -/
  | pcWrap
deriving DecidableEq, Repr

/-- What an instruction or a step answers. -/
abbrev Result := Host.Outcome State Fault Refusal

/-- A slice after reset. The spec gives VR, ACC and VCR no reset value (10_state.md R45); zero is the model's choice (notes/assumptions/1.md, DESIGN CHOICE, unsafe). -/
def Slice.reset : Slice where
  vr := Vector.replicate 32 0
  acc := 0
  vcr := 0

/-- The whole 32 bit address space. -/
def Region.all : Region where
  base := 0
  size := 2 ^ 32

/-- The address pc holds at reset; the spec gives no reset vector (70_reset_and_hazards.md R271; notes/assumptions/2.md, DESIGN CHOICE, unsafe). -/
def resetPc : Word := 0x100

/-- The machine after reset: one slice (notes/assumptions/5.md), registers zero (1.md), no program (6.md), every address mapped (4.md), the parameters at the spec's defaults. -/
def State.reset : State where
  slices := [Slice.reset]
  gpr := Vector.replicate 32 0
  pc := resetPc
  mem := []
  ioLog := []
  text := { base := resetPc, bytes := [] }
  platform := { ram := [Region.all], io := [Region.all] }
  params := Config.defaultParams
  retired := 0

end Sys2Proof.Machine
end

