-- ==== Sys2Proof/Machine/Operands.lean ====
section
/-! DEFINITION. The value primitives of 00_scope.md R12 to R18 and the operands of the element-wise instructions. -/

namespace Sys2Proof.Machine

/-- `trunc_N(z)`: the N bit pattern of `z mod 2^N` (00_scope.md R12). -/
def trunc (N : Nat) (z : Int) : BitVec N := BitVec.ofInt N z

/-- `sat_N(z)`: z clamped to the N bit signed range (00_scope.md R12). -/
def sat (N : Nat) (z : Int) : BitVec N :=
  if z > 2 ^ (N - 1) - 1 then BitVec.ofInt N (2 ^ (N - 1) - 1)
  else if z < -2 ^ (N - 1) then BitVec.ofInt N (-2 ^ (N - 1))
  else BitVec.ofInt N z

/-- `shift_left(x, n)`: zeros enter on the right, shifted-out bits are discarded (00_scope.md R13). -/
def shiftLeft {N : Nat} (x : BitVec N) (n : Nat) : BitVec N := BitVec.ofNat N (x.toNat * 2 ^ n)

/-- `shift_right(x, n)`: zeros enter on the left (00_scope.md R13). -/
def shiftRight {N : Nat} (x : BitVec N) (n : Nat) : BitVec N := BitVec.ofNat N (x.toNat / 2 ^ n)

/-- `mult_sat_fract(a, b, n)`: the product of two n bit fractions, 2n bit wide, which saturates only when both are the most negative number (00_scope.md R16). -/
def multSatFract {n : Nat} (a b : BitVec n) : BitVec (2 * n) :=
  if a.toInt = -2 ^ (n - 1) ∧ b.toInt = -2 ^ (n - 1) then BitVec.ofInt (2 * n) (2 ^ (2 * n - 1) - 1)
  else BitVec.ofInt (2 * n) (2 * (a.toInt * b.toInt))

/-- `add_sat(a, b, N)` (00_scope.md R17). -/
def addSat {N : Nat} (a b : BitVec N) : BitVec N := sat N (a.toInt + b.toInt)

/-- The factor by which `sign_extend` scales a single-precision element of n bit in the saturating fractional add family: `2^n` when it is aligned to the left, 1 under the literal reading (00_scope.md R18). -/
def fractScale (p : Config.Params) (n : Nat) : Int :=
  match p.fractAlign with
  | .left => 2 ^ n
  | .right => 1

/-- `fext_2n(x)`: a single-precision element brought to double precision in the saturating fractional add family (00_scope.md R18, FRACT_ALIGN). -/
def fext (p : Config.Params) {n : Nat} (x : BitVec n) : BitVec (2 * n) :=
  BitVec.ofInt (2 * n) (x.toInt * fractScale p n)

/-- The number `-(VRB)` stands for in fxvsubhfs and fxvsubbfs (42_satfract_halfword.md R166, SUBFS_NEG). -/
def negated (p : Config.Params) {n : Nat} (x : BitVec n) : Int :=
  match p.subfsNeg with
  | .exact => -x.toInt
  | .wrap => (trunc n (-x.toInt)).toInt

/-- The double-precision difference of fxvsubhfs and fxvsubbfs (42_satfract_halfword.md R166, 43_satfract_byte.md R186). -/
def subSatFract (p : Config.Params) {n : Nat} (u v : BitVec n) : BitVec (2 * n) :=
  sat (2 * n) ((u.toInt + negated p v) * fractScale p n)

/-- `upper(X)`: the upper half of a double-precision value (42_satfract_halfword.md R160 (e), 43_satfract_byte.md R180 (e)). -/
def upper {n : Nat} (x : BitVec (2 * n)) : BitVec n := x.extractLsb' n n

/-- The element as fxvmtach and fxvmtacb put it into the accumulator, aligned to the right (40_modulo_halfword.md R131, MTAC_EXTEND). -/
def mtacExt (p : Config.Params) {n : Nat} (x : BitVec n) : BitVec (2 * n) :=
  match p.mtacExtend with
  | .sign => x.signExtend (2 * n)
  | .zero => x.zeroExtend (2 * n)

/-- Vector register `r` of a slice. -/
def Slice.reg (sl : Slice) (r : VReg) : VecBits := sl.vr[r]

/-- `VR[r].h[i]` of a slice. -/
def Slice.h (sl : Slice) (r : VReg) (i : Nat) : Half := halfOf (sl.reg r) i

/-- `VR[r].b[j]` of a slice. -/
def Slice.b (sl : Slice) (r : VReg) (j : Nat) : Byte := byteOf (sl.reg r) j

/-- `ACC.w[i]` of a slice. -/
def Slice.aw (sl : Slice) (i : Nat) : Word := accWordOf sl.acc i

/-- `ACC.h[j]` of a slice. -/
def Slice.ah (sl : Slice) (j : Nat) : Half := accHalfOf sl.acc j

/-- `signed_16(VR[r].h[i])` (40_modulo_halfword.md R120 (c)). -/
def Slice.hInt (sl : Slice) (r : VReg) (i : Nat) : Int := (sl.h r i).toInt

/-- `signed_8(VR[r].b[j])` (41_modulo_byte.md R140 (c)). -/
def Slice.bInt (sl : Slice) (r : VReg) (j : Nat) : Int := (sl.b r j).toInt

/-- `signed_32(ACC.w[i])` (40_modulo_halfword.md R120 (c)). -/
def Slice.awInt (sl : Slice) (i : Nat) : Int := (sl.aw i).toInt

/-- `signed_16(ACC.h[j])` (41_modulo_byte.md R140 (c)). -/
def Slice.ahInt (sl : Slice) (j : Nat) : Int := (sl.ah j).toInt

/-- `PACK_MASK` (44_permute.md R205, D12); when unsettled it is one of the two readings, not known which. -/
def packMaskConst (p : Config.Params) : Nat :=
  match p.packMask with
  | .wide => 0xffff
  | .narrow => 0xff
  | .unsettled => if Config.packMaskIsNarrow then 0xff else 0xffff

/-- The byte fxvpckbl makes of a halfword: bits `2C+7 .. 2C`, masked (44_permute.md R205). -/
def packLower (p : Config.Params) (h : Half) (n : Nat) : Byte :=
  trunc 8 (h.toNat / 2 ^ (2 * n)) &&& BitVec.ofNat 8 (packMaskConst p / 2 ^ n)

/-- Whether fxvpckbl treats VRB as VRA (`PCKBL_SECOND`, 44_permute.md R205, D12); when unsettled it is one of the two readings, not known which. -/
def packSymmetric (p : Config.Params) : Bool :=
  match p.pckblSecond with
  | .literal => false
  | .symmetric => true
  | .unsettled => Config.pckblIsSymmetric

end Sys2Proof.Machine
end

