-- ==== Sys2Proof/Machine/Flags.lean ====
section
/-! DEFINITION. The vector condition register: its layout, what a compare writes, and what `conditional` reads (00_scope.md R15, 10_state.md R36 to R38). These are the only flags of the unit (R42). -/

namespace Sys2Proof.Machine

/-- The three condition areas of a VCR field (10_state.md R36). -/
inductive Area where
  | eq
  | gt
  | lt
deriving DecidableEq, Repr

/-- The place of an area in a field: eq 0, gt 1, lt 2 (10_state.md R36). -/
def areaIndex : Area → Nat
  | .eq => 0
  | .gt => 1
  | .lt => 2

/-- The bit position, counted from the left, of nibble `k` of an area: `12 * (k div 4) + 4 * a + (k mod 4)` (10_state.md R36). -/
def vcrPos (a : Area) (k : Nat) : Nat := 12 * (k / 4) + 4 * areaIndex a + k % 4

/-- `VCR.<area>[k]`, k = 0 to 31 (10_state.md R36). -/
def vcrBit (v : VcrBits) (a : Area) (k : Nat) : Bool := v.getMsbD (vcrPos a k)

/-- The area at a bit position. -/
def areaAt (pos : Nat) : Area :=
  match pos % 12 / 4 with
  | 0 => .eq
  | 1 => .gt
  | _ => .lt

/-- The nibble whose bit stands at a bit position. -/
def nibbleAt (pos : Nat) : Nat := 4 * (pos / 12) + pos % 4

/-- The VCR whose bit for nibble `k` of area `a` is `f a k`. -/
def ofVcrBits (f : Area → Nat → Bool) : VcrBits :=
  ofLanes 1 96 fun pos => BitVec.ofBool (f (areaAt pos) (nibbleAt pos))

/-- The comparison of an element with zero that an area records (40_modulo_halfword.md R130, 41_modulo_byte.md R150). -/
def compareZero (a : Area) (z : Int) : Bool :=
  match a with
  | .eq => decide (z = 0)
  | .gt => decide (z > 0)
  | .lt => decide (z < 0)

/-- The area a condition selects, none for always (00_scope.md R15). -/
def condArea : Cond → Option Area
  | .always => none
  | .gt => some .gt
  | .lt => some .lt
  | .eq => some .eq

/-- `cond_b(C, j)`: the condition of byte element j, bit 2j of the selected area (10_state.md R38). -/
def condB (c : Cond) (v : VcrBits) (j : Nat) : Bool :=
  match condArea c with
  | none => true
  | some a => vcrBit v a (2 * j)

/-- All four bits of halfword element i in an area are set. -/
def fieldAll (v : VcrBits) (a : Area) (i : Nat) : Bool :=
  vcrBit v a (4 * i) && vcrBit v a (4 * i + 1) && vcrBit v a (4 * i + 2) && vcrBit v a (4 * i + 3)

/-- Some of the four bits of halfword element i in an area is set. -/
def fieldAny (v : VcrBits) (a : Area) (i : Nat) : Bool :=
  vcrBit v a (4 * i) || vcrBit v a (4 * i + 1) || vcrBit v a (4 * i + 2) || vcrBit v a (4 * i + 3)

/-- A halfword-conditional instruction with condition `c` would read a field of element i whose four bits differ (10_state.md R38, 93_implementation_defined.md U1). -/
def fieldMixed (c : Cond) (v : VcrBits) (i : Nat) : Bool :=
  match condArea c with
  | none => false
  | some a => fieldAny v a i && !fieldAll v a i

/-- `cond_h(C, i)`: the condition of halfword element i, the common value of the four bits of the selected area; where they differ, what VCR_HW_READ says, and a free value where it says nothing (10_state.md R38, U1; notes/assumptions/14.md). -/
def condH (p : Config.Params) (retired slice : Nat) (c : Cond) (v : VcrBits) (i : Nat) : Bool :=
  match condArea c with
  | none => true
  | some a =>
    if fieldMixed c v i then
      match p.vcrHwRead with
      | .unspecified => Config.mixedCondition retired slice c v i
      | .allBits => false
      | .anyBit => true
      | .firstBit => vcrBit v a (4 * i)
    else fieldAll v a i

/-- Some slice has a field that a halfword-conditional instruction with condition `c` would read mixed. -/
def anyMixed (c : Cond) (slices : List Slice) : Bool :=
  slices.any fun sl => (List.range 8).any fun i => fieldMixed c sl.vcr i

/-- The halfword-conditional read ends in `fault(vcr_mixed)`: only with VCR_HW_READ unspecified and `onGap = stop` (60_exceptions.md R243; notes/assumptions/18.md). -/
def condHStops (s : State) (c : Cond) : Bool :=
  decide (s.params.onGap = .stop) && decide (s.params.vcrHwRead = .unspecified) && anyMixed c s.slices

end Sys2Proof.Machine
end

