-- ==== Sys2Proof/Machine/Memory.lean ====
section
/-! DEFINITION. Main memory (20_memory.md): reading and writing one byte, one 32 bit word, one vector register. A memory lists the bytes that differ from `unlistedByte`, addresses strictly rising. -/

namespace Sys2Proof.Machine

/-- What an unlisted address reads as. The spec states no contents of main memory (10_state.md R45, 20_memory.md R69); the model fixes 0 (notes/assumptions/3.md, DESIGN CHOICE, unsafe). -/
def unlistedByte : Byte := 0

/-- The first address past the address space: addresses are XLEN = 32 bit (10_state.md R43). -/
def addressLimit : Nat := 2 ^ 32

/-- The entries of `m` have strictly rising addresses, all from `lo` up and inside the address space, and none equals what an unlisted address reads as. -/
def Memory.wfFrom (lo : Nat) : Memory → Bool
  | [] => true
  | (k, b) :: rest => decide (lo ≤ k) && decide (k < addressLimit) && decide (b ≠ unlistedByte) && Memory.wfFrom (k + 1) rest

/-- The canonical form of a memory. -/
def Memory.wf (m : Memory) : Bool := Memory.wfFrom 0 m

/-- The byte at address `a`: the last value written to it (20_memory.md R68). -/
def Memory.read (m : Memory) (a : Nat) : Byte :=
  match m with
  | [] => unlistedByte
  | (k, b) :: rest => if k = a then b else Memory.read rest a

/-- Memory with byte `b` at address `a`, in canonical form. -/
def Memory.write (m : Memory) (a : Nat) (b : Byte) : Memory :=
  match m with
  | [] => if b = unlistedByte then [] else [(a, b)]
  | (k, x) :: rest =>
    if a < k then
      if b = unlistedByte then (k, x) :: rest else (a, b) :: (k, x) :: rest
    else if a = k then
      if b = unlistedByte then rest else (a, b) :: rest
    else (k, x) :: Memory.write rest a b

/-- The number of the byte of a word, 0 the most significant, that stands at the `q`-th of the word's four addresses (20_memory.md R62, BYTE_ORDER). -/
def byteIndex (o : Config.ByteOrder) (q : Nat) : Nat :=
  match o with
  | .big => q
  | .little => 3 - q

/-- `MemRead(a, 4)` (00_scope.md R19, 20_memory.md R62). -/
def Memory.readWord (m : Memory) (o : Config.ByteOrder) (a : Nat) : Word :=
  ofLanes 8 4 fun q => m.read (a + byteIndex o q)

/-- `MemWrite(a, 4, v)` (00_scope.md R19, 20_memory.md R62). -/
def Memory.writeWord (m : Memory) (o : Config.ByteOrder) (a : Nat) (v : Word) : Memory :=
  (((m.write a (lane 8 v (byteIndex o 0))).write (a + 1) (lane 8 v (byteIndex o 1))).write
    (a + 2) (lane 8 v (byteIndex o 2))).write (a + 3) (lane 8 v (byteIndex o 3))

/-- The 128 bits of one slice, read as four words at rising addresses, the word at the lowest address leftmost (20_memory.md R61). -/
def Memory.readVec (m : Memory) (o : Config.ByteOrder) (a : Nat) : VecBits :=
  ofLanes 32 4 fun j => m.readWord o (a + 4 * j)

/-- The 128 bits of one slice, written as four words at rising addresses (45_load_store.md R223). -/
def Memory.writeVec (m : Memory) (o : Config.ByteOrder) (a : Nat) (v : VecBits) : Memory :=
  (((m.writeWord o a (lane 32 v 0)).writeWord o (a + 4) (lane 32 v 1)).writeWord
    o (a + 8) (lane 32 v 2)).writeWord o (a + 12) (lane 32 v 3)

/-- The parts of all slices, slice 0 at `a`, each next slice 16 bytes on (20_memory.md R61, 45_load_store.md R223). -/
def Memory.writeVecs (m : Memory) (o : Config.ByteOrder) (a : Nat) : List VecBits → Memory
  | [] => m
  | v :: rest => Memory.writeVecs (m.writeVec o a v) o (a + 16) rest

end Sys2Proof.Machine
end

