-- ==== Sys2Proof/Machine/Ops.lean ====
section
/-! DEFINITION. The named operations every meaning is made of: what each slice does, the end of an instruction, the shapes of the element-wise instructions, the effective address with its checks, and fetching. There is no exception to take and none to return from: no FXV instruction raises one and the set has no trap entry (60_exceptions.md R240, R247, R248). -/

namespace Sys2Proof.Machine

/-- The slice with vector register `r` replaced. -/
def Slice.setReg (sl : Slice) (r : VReg) (v : VecBits) : Slice := { sl with vr := sl.vr.set r v }

/-- The slice with the accumulator replaced. -/
def Slice.setAcc (sl : Slice) (v : AccBits) : Slice := { sl with acc := v }

/-- The slice with the condition register replaced. -/
def Slice.setVcr (sl : Slice) (v : VcrBits) : Slice := { sl with vcr := v }

/-- `x[r]` (10_state.md R40). -/
def State.x (s : State) (r : GReg) : Word := s.gpr[r]

/-- NUM_SLICES (00_scope.md R5). -/
def State.numSlices (s : State) : Nat := s.slices.length

/-- Every slice does the same operation on its own state; `f` is given the slice's number (10_state.md R31). -/
def State.mapSlices (s : State) (f : Nat → Slice → Slice) : State := { s with slices := s.slices.mapIdx f }

/-- The state with `m` as main memory. -/
def State.setMem (s : State) (m : Memory) : State := { s with mem := m }

/-- The state with one more event at the end of the IO log. -/
def State.logIo (s : State) (e : Config.IoEvent) : State := { s with ioLog := s.ioLog ++ [e] }

/-- The state an instruction leaves: `pc <- pc + 4` (10_state.md R41), and one more completed instruction. -/
def State.advance (s : State) : State := { s with pc := s.pc + 4, retired := s.retired + 1 }

/-- The end of every instruction: `refuse(pc_wrap)` when pc + 4 passes 2^32, the last check of 60_exceptions.md R246, else the next state. -/
def State.finish (s : State) : Result :=
  if s.pc.toNat + 4 < 2 ^ 32 then .next s.advance else .refused .pcWrap

/-- A conditional halfword instruction that writes VRT: element i becomes `f` of the slice and i where the condition holds and keeps its value elsewhere (40_modulo_halfword.md R120, 42_satfract_halfword.md R160). -/
def halfToReg (vrt : VReg) (c : Cond) (f : Slice → Nat → Half) (s : State) : Result :=
  if condHStops s c then .fault .vcrMixed
  else (s.mapSlices fun k sl => sl.setReg vrt (ofHalves fun i =>
    if condH s.params s.retired k c sl.vcr i then f sl i else sl.h vrt i)).finish

/-- A conditional halfword instruction that writes the accumulator (40_modulo_halfword.md R120, 42_satfract_halfword.md R160). -/
def halfToAcc (c : Cond) (f : Slice → Nat → Word) (s : State) : Result :=
  if condHStops s c then .fault .vcrMixed
  else (s.mapSlices fun k sl => sl.setAcc (ofAccWords fun i =>
    if condH s.params s.retired k c sl.vcr i then f sl i else sl.aw i)).finish

/-- A conditional byte instruction that writes VRT (41_modulo_byte.md R140, 43_satfract_byte.md R180). -/
def byteToReg (vrt : VReg) (c : Cond) (f : Slice → Nat → Byte) (s : State) : Result :=
  (s.mapSlices fun _ sl => sl.setReg vrt (ofBytes fun j =>
    if condB c sl.vcr j then f sl j else sl.b vrt j)).finish

/-- A conditional byte instruction that writes the accumulator (41_modulo_byte.md R140, 43_satfract_byte.md R180). -/
def byteToAcc (c : Cond) (f : Slice → Nat → Half) (s : State) : Result :=
  (s.mapSlices fun _ sl => sl.setAcc (ofAccHalves fun j =>
    if condB c sl.vcr j then f sl j else sl.ah j)).finish

/-- An unconditional instruction that writes VRT whole in every slice (44_permute.md R200, 40_modulo_halfword.md R132). -/
def writeReg (vrt : VReg) (f : Nat → Slice → VecBits) (s : State) : Result :=
  (s.mapSlices fun k sl => sl.setReg vrt (f k sl)).finish

/-- A compare: all 96 bits of the VCR of every slice are written; the bits of nibble k come from the element `f` gives (10_state.md R37). -/
def writeVcr (f : Slice → Nat → Int) (s : State) : Result :=
  (s.mapSlices fun _ sl => sl.setVcr (ofVcrBits fun a k => compareZero a (f sl k))).finish

/-- The effective address of the four load/store instructions: an RA field of 0 means no base register; the sum wraps modulo 2^32 (45_load_store.md R220). -/
def effectiveAddress (s : State) (ra rb : GReg) : Word :=
  (if ra = 0 then 0 else s.x ra) + s.x rb

/-- An address belongs to one of the regions. -/
def inRegions (rs : List Region) (a : Nat) : Bool :=
  rs.any fun r => decide (r.base ≤ a) && decide (a < r.base + r.size)

/-- The size of the footprint of fxvlax and fxvstax: `16 * NUM_SLICES` bytes (20_memory.md R66). -/
def State.footprint (s : State) : Nat := 16 * s.numSlices

/-- Every byte of the footprint at `ea` exists in the launch memory (20_memory.md R69). -/
def footprintMapped (s : State) (ea : Nat) : Bool :=
  (List.range s.footprint).all fun k => inRegions s.platform.ram (ea + k)

/-- The value of FXV_MEM_ALIGN (20_memory.md R65). -/
def State.memAlign (s : State) : Nat :=
  match s.params.memAlign with
  | .footprint => 16 * s.numSlices
  | .bytes n => n

/-- The ranges `a .. a+n-1` and `b .. b+m-1` have an address in common. -/
def rangesMeet (a n b m : Nat) : Bool := decide (max a b < min (a + n) (b + m))

/-- The footprint at `ea` meets the program text (20_memory.md R72). -/
def meetsText (s : State) (ea : Nat) : Bool :=
  rangesMeet ea s.footprint s.text.base.toNat s.text.bytes.length

/-- The address checks of fxvlax and fxvstax in the order of 60_exceptions.md R246: address_wrap, misaligned_vector_access, unmapped, and for a store store_to_code. -/
def memCheck (s : State) (ea : Nat) (isStore : Bool) : Option Refusal :=
  if ea + s.footprint > 2 ^ 32 then some .addressWrap
  else if ea % s.memAlign ≠ 0 then some .misalignedVectorAccess
  else if !footprintMapped s ea then some .unmapped
  else if isStore && meetsText s ea then some .storeToCode
  else none

/-- The word at pc: the four bytes of the program text from pc up (20_memory.md R63, 70_reset_and_hazards.md R276 (1)). The run has ended at the first address past the text (R277); any other pc without a whole word of text at a multiple of 4 is outside it. -/
def fetch (s : State) : Except Refusal (List Byte) :=
  if s.pc.toNat = s.text.base.toNat + s.text.bytes.length then .error .runEnded
  else if s.pc.toNat % 4 = 0 ∧ s.text.base.toNat ≤ s.pc.toNat ∧ s.pc.toNat + 4 ≤ s.text.base.toNat + s.text.bytes.length then
    .ok ((s.text.bytes.drop (s.pc.toNat - s.text.base.toNat)).take 4)
  else .error .outsideText

/-- A word that decoded to `i` is refused for a nonzero unused field: an assembler writes 0 there, so the word differs from the encoding of `i` (30_encoding.md R98, UNUSED_FIELDS). -/
def unusedRefused (s : State) (i : Instr) (bs : List Byte) : Bool :=
  decide (s.params.unusedFields = .refuseNonzero) && decide (encodeBytes i ≠ bs)

/-- The refusal of a word that spells no FXV instruction (30_encoding.md R99). A sequence shorter than a word is no word of the text. -/
def decodeRefusal : DecodeError → Refusal
  | .notFxv => .notFxv
  | .unassignedXo => .unassignedXo
  | .tooShort => .outsideText

end Sys2Proof.Machine
end

