-- ==== Sys2Proof/Machine/LoadStore.lean ====
section
/-! DEFINITION. The four load/store instructions (45_load_store.md R220 to R225). They are unconditional, move VRT of every slice whole and touch neither VCR nor accumulator (R221). -/

namespace Sys2Proof.Machine

/-- fxvlax, R222. VRT of slice s is loaded from the 16 bytes at `EA + 16 s`, after the checks of 60_exceptions.md R246. -/
def execFxvlax (vrt : VReg) (ra rb : GReg) (s : State) : Result :=
  match memCheck s (effectiveAddress s ra rb).toNat false with
  | some r => .refused r
  | none => writeReg vrt (fun k _ =>
      s.mem.readVec s.params.byteOrder ((effectiveAddress s ra rb).toNat + 16 * k)) s

/-- fxvstax, R223. VRT of slice s is stored to the 16 bytes at `EA + 16 s`, after the checks of 60_exceptions.md R246. -/
def execFxvstax (vrt : VReg) (ra rb : GReg) (s : State) : Result :=
  match memCheck s (effectiveAddress s ra rb).toNat true with
  | some r => .refused r
  | none => (s.setMem (s.mem.writeVecs s.params.byteOrder (effectiveAddress s ra rb).toNat
      (s.slices.map fun sl => sl.reg vrt))).finish

/-- fxvinx, R224. One IO location answers for all slices; the answer is the IO oracle's and the read is an event of the IO log (20_memory.md R68; notes/assumptions/20.md). -/
def execFxvinx (vrt : VReg) (ra rb : GReg) (s : State) : Result :=
  if inRegions s.platform.io (effectiveAddress s ra rb).toNat then
    writeReg vrt (fun k _ => Config.ioOracle s.retired s.ioLog (effectiveAddress s ra rb) k)
      (s.logIo (.read (effectiveAddress s ra rb) ((List.range s.numSlices).map fun k =>
        Config.ioOracle s.retired s.ioLog (effectiveAddress s ra rb) k)))
  else .refused .unmapped

/-- fxvoutx, R225. VRT of all slices is written to one IO location: one event of the IO log (20_memory.md R68; notes/assumptions/20.md). -/
def execFxvoutx (vrt : VReg) (ra rb : GReg) (s : State) : Result :=
  if inRegions s.platform.io (effectiveAddress s ra rb).toNat then
    (s.logIo (.write (effectiveAddress s ra rb) (s.slices.map fun sl => sl.reg vrt))).finish
  else .refused .unmapped

end Sys2Proof.Machine
end

