-- ==== Sys2Proof/Machine/ModuloByte.lean ====
section
/-! DEFINITION. The twelve modulo byte instructions (41_modulo_byte.md R141 to R152): 8 bit elements, results wrap. -/

namespace Sys2Proof.Machine

/-- fxvmabm, R141. `VRT <- trunc(a * b + m)` by element; the accumulator is read and not written. -/
def execFxvmabm (vrt vra vrb : VReg) (c : Cond) (s : State) : Result :=
  byteToReg vrt c (fun sl j => trunc 8 (sl.bInt vra j * sl.bInt vrb j + sl.ahInt j)) s

/-- fxvmatacbm, R142. `ACC <- trunc(a * b + m)` by element, the product signed (92_eei_decisions.md D7; notes/assumptions/21.md). -/
def execFxvmatacbm (vra vrb : VReg) (c : Cond) (s : State) : Result :=
  byteToAcc c (fun sl j => trunc 16 (sl.bInt vra j * sl.bInt vrb j + sl.ahInt j)) s

/-- fxvmulbm, R143. `VRT <- trunc(a * b)` by element. -/
def execFxvmulbm (vrt vra vrb : VReg) (c : Cond) (s : State) : Result :=
  byteToReg vrt c (fun sl j => trunc 8 (sl.bInt vra j * sl.bInt vrb j)) s

/-- fxvmultacbm, R144. `ACC <- trunc(a * b)` by element, the product signed (92_eei_decisions.md D7; notes/assumptions/21.md); the old accumulator is not read. -/
def execFxvmultacbm (vra vrb : VReg) (c : Cond) (s : State) : Result :=
  byteToAcc c (fun sl j => trunc 16 (sl.bInt vra j * sl.bInt vrb j)) s

/-- fxvsubbm, R145. `VRT <- trunc(a - b)` by element, VRA minus VRB. -/
def execFxvsubbm (vrt vra vrb : VReg) (c : Cond) (s : State) : Result :=
  byteToReg vrt c (fun sl j => trunc 8 (sl.bInt vra j - sl.bInt vrb j)) s

/-- fxvaddactacb, R146. `ACC <- trunc(a + m)` by element, a sign-extended. -/
def execFxvaddactacb (vra : VReg) (c : Cond) (s : State) : Result :=
  byteToAcc c (fun sl j => trunc 16 (sl.bInt vra j + sl.ahInt j)) s

/-- fxvaddtacb, R147. `ACC <- trunc(a + b)` by element, both sign-extended. -/
def execFxvaddtacb (vra vrb : VReg) (c : Cond) (s : State) : Result :=
  byteToAcc c (fun sl j => trunc 16 (sl.bInt vra j + sl.bInt vrb j)) s

/-- fxvaddacbm, R148. `VRT <- trunc(a + m)` by element; the accumulator is read and not written. Conditional, as the pseudocode has it (90_conflicts.md C7). -/
def execFxvaddacbm (vrt vra : VReg) (c : Cond) (s : State) : Result :=
  byteToReg vrt c (fun sl j => trunc 8 (sl.bInt vra j + sl.ahInt j)) s

/-- fxvaddbm, R149. `VRT <- trunc(a + b)` by element. -/
def execFxvaddbm (vrt vra vrb : VReg) (c : Cond) (s : State) : Result :=
  byteToReg vrt c (fun sl j => trunc 8 (sl.bInt vra j + sl.bInt vrb j)) s

/-- fxvcmpb, R150. The element is compared with zero and the result written to the two bits of its nibbles in each area; unconditional. -/
def execFxvcmpb (vra : VReg) (s : State) : Result :=
  writeVcr (fun sl k => sl.bInt vra (k / 2)) s

/-- fxvmtacb, R151. The element goes to the accumulator aligned to the right; the upper half is what MTAC_EXTEND says (92_eei_decisions.md D8; notes/assumptions/11.md). -/
def execFxvmtacb (vra : VReg) (c : Cond) (s : State) : Result :=
  byteToAcc c (fun sl j => mtacExt s.params (sl.b vra j)) s

/-- fxvsplatb, R152. The lower byte of x[RA] goes to every element of VRT; RA = 0 reads x[0]; unconditional. -/
def execFxvsplatb (vrt : VReg) (ra : GReg) (s : State) : Result :=
  writeReg vrt (fun _ _ => ofBytes fun _ => (s.x ra).extractLsb' 0 8) s

end Sys2Proof.Machine
end

