-- ==== Sys2Proof/Machine/ModuloHalf.lean ====
section
/-! DEFINITION. The twelve modulo halfword instructions (40_modulo_halfword.md R121 to R132): 16 bit elements, results wrap. -/

namespace Sys2Proof.Machine

/-- fxvmahm, R121. `VRT <- trunc(a * b + m)` by element; the accumulator is read and not written. -/
def execFxvmahm (vrt vra vrb : VReg) (c : Cond) (s : State) : Result :=
  halfToReg vrt c (fun sl i => trunc 16 (sl.hInt vra i * sl.hInt vrb i + sl.awInt i)) s

/-- fxvmatachm, R122. `ACC <- trunc(a * b + m)` by element, the product signed (92_eei_decisions.md D7; notes/assumptions/21.md). -/
def execFxvmatachm (vra vrb : VReg) (c : Cond) (s : State) : Result :=
  halfToAcc c (fun sl i => trunc 32 (sl.hInt vra i * sl.hInt vrb i + sl.awInt i)) s

/-- fxvmulhm, R123. `VRT <- trunc(a * b)` by element. -/
def execFxvmulhm (vrt vra vrb : VReg) (c : Cond) (s : State) : Result :=
  halfToReg vrt c (fun sl i => trunc 16 (sl.hInt vra i * sl.hInt vrb i)) s

/-- fxvmultachm, R124. `ACC <- trunc(a * b)` by element, the product signed (92_eei_decisions.md D7; notes/assumptions/21.md); the old accumulator is not read. -/
def execFxvmultachm (vra vrb : VReg) (c : Cond) (s : State) : Result :=
  halfToAcc c (fun sl i => trunc 32 (sl.hInt vra i * sl.hInt vrb i)) s

/-- fxvsubhm, R125. `VRT <- trunc(a - b)` by element, VRA minus VRB. -/
def execFxvsubhm (vrt vra vrb : VReg) (c : Cond) (s : State) : Result :=
  halfToReg vrt c (fun sl i => trunc 16 (sl.hInt vra i - sl.hInt vrb i)) s

/-- fxvaddactachm, R126. `ACC <- trunc(a + m)` by element, a sign-extended. -/
def execFxvaddactachm (vra : VReg) (c : Cond) (s : State) : Result :=
  halfToAcc c (fun sl i => trunc 32 (sl.hInt vra i + sl.awInt i)) s

/-- fxvaddtachm, R127. `ACC <- trunc(a + b)` by element, both sign-extended. -/
def execFxvaddtachm (vra vrb : VReg) (c : Cond) (s : State) : Result :=
  halfToAcc c (fun sl i => trunc 32 (sl.hInt vra i + sl.hInt vrb i)) s

/-- fxvaddachm, R128. `VRT <- trunc(a + m)` by element; the accumulator is read and not written. Conditional, as the pseudocode has it (90_conflicts.md C7). -/
def execFxvaddachm (vrt vra : VReg) (c : Cond) (s : State) : Result :=
  halfToReg vrt c (fun sl i => trunc 16 (sl.hInt vra i + sl.awInt i)) s

/-- fxvaddhm, R129. `VRT <- trunc(a + b)` by element. -/
def execFxvaddhm (vrt vra vrb : VReg) (c : Cond) (s : State) : Result :=
  halfToReg vrt c (fun sl i => trunc 16 (sl.hInt vra i + sl.hInt vrb i)) s

/-- fxvcmphm, R130. The element is compared with zero and the result written to the four bits of its nibbles in each area; unconditional. -/
def execFxvcmphm (vra : VReg) (s : State) : Result :=
  writeVcr (fun sl k => sl.hInt vra (k / 4)) s

/-- fxvmtach, R131. The element goes to the accumulator aligned to the right; the upper half is what MTAC_EXTEND says (92_eei_decisions.md D8; notes/assumptions/11.md). -/
def execFxvmtach (vra : VReg) (c : Cond) (s : State) : Result :=
  halfToAcc c (fun sl i => mtacExt s.params (sl.h vra i)) s

/-- fxvsplath, R132. The lower halfword of x[RA] goes to every element of VRT; RA = 0 reads x[0]; unconditional. -/
def execFxvsplath (vrt : VReg) (ra : GReg) (s : State) : Result :=
  writeReg vrt (fun _ _ => ofHalves fun _ => (s.x ra).extractLsb' 0 16) s

end Sys2Proof.Machine
end

