-- ==== Sys2Proof/Machine/Permute.lean ====
section
/-! DEFINITION. The seven permute instructions (44_permute.md R201 to R207). -/

namespace Sys2Proof.Machine

/-- fxvsel, R201. Each byte of VRT becomes the byte of VRB where the condition holds and the byte of VRA where it does not; no old byte is kept. -/
def execFxvsel (vrt vra vrb : VReg) (c : Cond) (s : State) : Result :=
  writeReg vrt (fun _ sl => ofBytes fun j => if condB c sl.vcr j then sl.b vrb j else sl.b vra j) s

/-- fxvshh, R202. Each halfword is shifted left by the number in the VRB field, zeros from the right; unconditional (amounts from 16 up give 0, 92_eei_decisions.md D30; notes/assumptions/30.md). -/
def execFxvshh (vrt vra : VReg) (amount : Nat) (s : State) : Result :=
  writeReg vrt (fun _ sl => ofHalves fun i => shiftLeft (sl.h vra i) amount) s

/-- fxvshb, R203. Each byte is shifted left by the number in the VRB field, zeros from the right; unconditional (amounts from 8 up give 0, 92_eei_decisions.md D30; notes/assumptions/30.md). -/
def execFxvshb (vrt vra : VReg) (amount : Nat) (s : State) : Result :=
  writeReg vrt (fun _ sl => ofBytes fun j => shiftLeft (sl.b vra j) amount) s

/-- fxvpckbu, R204. Bytes 0 to 7 of VRT are the upper bytes of the halfwords of VRA, bytes 8 to 15 those of VRB, each shifted right by the C number (`PACK_SPLIT = 8`, 92_eei_decisions.md D12; notes/assumptions/15.md). -/
def execFxvpckbu (vrt vra vrb : VReg) (n : Nat) (s : State) : Result :=
  writeReg vrt (fun _ sl => ofBytes fun j =>
    if j < 8 then shiftRight (sl.b vra (2 * j)) n else shiftRight (sl.b vrb (2 * (j - 8))) n) s

/-- fxvpckbl, R205. Bytes 0 to 7 of VRT are bits `2C+7 .. 2C` of the halfwords of VRA, masked; bytes 8 to 15 come from VRB as PCKBL_SECOND says. What PACK_MASK and PCKBL_SECOND leave unsettled is a free choice between the spec's two readings, or stops the model under `onGap = stop` (92_eei_decisions.md D12; notes/assumptions/16.md). -/
def execFxvpckbl (vrt vra vrb : VReg) (n : Nat) (s : State) : Result :=
  if s.params.onGap = .stop ∧ (s.params.packMask = .unsettled ∨ s.params.pckblSecond = .unsettled) then
    .refused .packNotSettled
  else writeReg vrt (fun _ sl => ofBytes fun j =>
    if j < 8 then packLower s.params (sl.h vra j) n
    else if packSymmetric s.params then packLower s.params (sl.h vrb (j - 8)) n
    else shiftRight (sl.b vrb (2 * (j - 8))) n) s

/-- fxvupckbl, R206. It writes VRT; the value is not defined and is a free value, or stops the model under `onGap = stop` (92_eei_decisions.md D31; notes/assumptions/17.md). -/
def execFxvupckbl (vrt vra vrb : VReg) (n : Nat) (s : State) : Result :=
  if s.params.onGap = .stop then .refused .unpackNotDefined
  else writeReg vrt (fun k sl => Config.unpackLeft s.retired k vrt vra vrb n sl.vr) s

/-- fxvupckbr, R207. It writes VRT; the value is not defined and is a free value, or stops the model under `onGap = stop` (92_eei_decisions.md D31; notes/assumptions/17.md). -/
def execFxvupckbr (vrt vra vrb : VReg) (n : Nat) (s : State) : Result :=
  if s.params.onGap = .stop then .refused .unpackNotDefined
  else writeReg vrt (fun k sl => Config.unpackRight s.retired k vrt vra vrb n sl.vr) s

end Sys2Proof.Machine
end

