-- ==== Sys2Proof/Machine/SatfractByte.lean ====
section
/-! DEFINITION. The nine saturating fractional byte instructions (43_satfract_byte.md R181 to R189): 8 bit elements, results clamp. -/

namespace Sys2Proof.Machine

/-- fxvmabfs, R181. The fractional product is added to the accumulator, both saturating, and the upper half of the sum goes to VRT; the accumulator is not modified. -/
def execFxvmabfs (vrt vra vrb : VReg) (c : Cond) (s : State) : Result :=
  byteToReg vrt c (fun sl j => upper (n := 8) (addSat (sl.ah j) (multSatFract (sl.b vra j) (sl.b vrb j)))) s

/-- fxvmtacbf, R182. The element goes to the accumulator aligned to the left, zeros below. -/
def execFxvmtacbf (vra : VReg) (c : Cond) (s : State) : Result :=
  byteToAcc c (fun sl j => sl.b vra j ++ 0#8) s

/-- fxvmatacbfs, R183. The fractional product is added to the accumulator, both saturating, and the sum goes to the accumulator. -/
def execFxvmatacbfs (vra vrb : VReg) (c : Cond) (s : State) : Result :=
  byteToAcc c (fun sl j => addSat (sl.ah j) (multSatFract (sl.b vra j) (sl.b vrb j))) s

/-- fxvmulbfs, R184. The upper half of the saturating fractional product goes to VRT (the source's M is W, 90_conflicts.md C3). -/
def execFxvmulbfs (vrt vra vrb : VReg) (c : Cond) (s : State) : Result :=
  byteToReg vrt c (fun sl j => upper (n := 8) (multSatFract (sl.b vra j) (sl.b vrb j))) s

/-- fxvmultacbfs, R185. The saturating fractional product goes to the accumulator (the source's M is W, 90_conflicts.md C3; conditional, C7). -/
def execFxvmultacbfs (vra vrb : VReg) (c : Cond) (s : State) : Result :=
  byteToAcc c (fun sl j => multSatFract (sl.b vra j) (sl.b vrb j)) s

/-- fxvsubbfs, R186. The saturating fractional difference VRA minus VRB, upper half; FRACT_ALIGN (92_eei_decisions.md D9; notes/assumptions/12.md) and SUBFS_NEG (D10; notes/assumptions/13.md). -/
def execFxvsubbfs (vrt vra vrb : VReg) (c : Cond) (s : State) : Result :=
  byteToReg vrt c (fun sl j => upper (n := 8) (subSatFract s.params (sl.b vra j) (sl.b vrb j))) s

/-- fxvaddactacbf, R187. The element is added to the accumulator, saturating; FRACT_ALIGN (92_eei_decisions.md D9; notes/assumptions/12.md). Conditional, as the pseudocode has it (90_conflicts.md C7). -/
def execFxvaddactacbf (vra : VReg) (c : Cond) (s : State) : Result :=
  byteToAcc c (fun sl j => addSat (fext s.params (sl.b vra j)) (sl.ah j)) s

/-- fxvaddacbfs, R188. The upper half of the saturating sum of element and accumulator goes to VRT; the accumulator is not modified; FRACT_ALIGN (92_eei_decisions.md D9; notes/assumptions/12.md). Conditional (90_conflicts.md C7). -/
def execFxvaddacbfs (vrt vra : VReg) (c : Cond) (s : State) : Result :=
  byteToReg vrt c (fun sl j => upper (n := 8) (addSat (fext s.params (sl.b vra j)) (sl.ah j))) s

/-- fxvaddbfs, R189. The upper half of the saturating sum of the two elements goes to VRT; FRACT_ALIGN (92_eei_decisions.md D9; notes/assumptions/12.md). Conditional (90_conflicts.md C7). -/
def execFxvaddbfs (vrt vra vrb : VReg) (c : Cond) (s : State) : Result :=
  byteToReg vrt c (fun sl j => upper (n := 8) (addSat (fext s.params (sl.b vra j)) (fext s.params (sl.b vrb j)))) s

end Sys2Proof.Machine
end

