-- ==== Sys2Proof/Machine/SatfractHalf.lean ====
section
/-! DEFINITION. The nine saturating fractional halfword instructions (42_satfract_halfword.md R161 to R169): 16 bit elements, results clamp. -/

namespace Sys2Proof.Machine

/-- fxvmahfs, R161. The fractional product is added to the accumulator, both saturating, and the upper half of the sum goes to VRT; the accumulator is not modified. -/
def execFxvmahfs (vrt vra vrb : VReg) (c : Cond) (s : State) : Result :=
  halfToReg vrt c (fun sl i => upper (n := 16) (addSat (sl.aw i) (multSatFract (sl.h vra i) (sl.h vrb i)))) s

/-- fxvmtachf, R162. The element goes to the accumulator aligned to the left, zeros below. -/
def execFxvmtachf (vra : VReg) (c : Cond) (s : State) : Result :=
  halfToAcc c (fun sl i => sl.h vra i ++ 0#16) s

/-- fxvmatachfs, R163. The fractional product is added to the accumulator, both saturating, and the sum goes to the accumulator. -/
def execFxvmatachfs (vra vrb : VReg) (c : Cond) (s : State) : Result :=
  halfToAcc c (fun sl i => addSat (sl.aw i) (multSatFract (sl.h vra i) (sl.h vrb i))) s

/-- fxvmulhfs, R164. The upper half of the saturating fractional product goes to VRT (the source's M is W, 90_conflicts.md C3). -/
def execFxvmulhfs (vrt vra vrb : VReg) (c : Cond) (s : State) : Result :=
  halfToReg vrt c (fun sl i => upper (n := 16) (multSatFract (sl.h vra i) (sl.h vrb i))) s

/-- fxvmultachfs, R165. The saturating fractional product goes to the accumulator (the source's M is W, 90_conflicts.md C3; conditional, C7). -/
def execFxvmultachfs (vra vrb : VReg) (c : Cond) (s : State) : Result :=
  halfToAcc c (fun sl i => multSatFract (sl.h vra i) (sl.h vrb i)) s

/-- fxvsubhfs, R166. The saturating fractional difference VRA minus VRB, upper half; FRACT_ALIGN (92_eei_decisions.md D9; notes/assumptions/12.md) and SUBFS_NEG (D10; notes/assumptions/13.md). -/
def execFxvsubhfs (vrt vra vrb : VReg) (c : Cond) (s : State) : Result :=
  halfToReg vrt c (fun sl i => upper (n := 16) (subSatFract s.params (sl.h vra i) (sl.h vrb i))) s

/-- fxvaddactachf, R167. The element is added to the accumulator, saturating; FRACT_ALIGN (92_eei_decisions.md D9; notes/assumptions/12.md). Conditional, as the pseudocode has it (90_conflicts.md C7). -/
def execFxvaddactachf (vra : VReg) (c : Cond) (s : State) : Result :=
  halfToAcc c (fun sl i => addSat (fext s.params (sl.h vra i)) (sl.aw i)) s

/-- fxvaddachfs, R168. The upper half of the saturating sum of element and accumulator goes to VRT; the accumulator is not modified; FRACT_ALIGN (92_eei_decisions.md D9; notes/assumptions/12.md). Conditional (90_conflicts.md C7). -/
def execFxvaddachfs (vrt vra : VReg) (c : Cond) (s : State) : Result :=
  halfToReg vrt c (fun sl i => upper (n := 16) (addSat (fext s.params (sl.h vra i)) (sl.aw i))) s

/-- fxvaddhfs, R169. The upper half of the saturating sum of the two elements goes to VRT; FRACT_ALIGN (92_eei_decisions.md D9; notes/assumptions/12.md). Conditional (90_conflicts.md C7). -/
def execFxvaddhfs (vrt vra vrb : VReg) (c : Cond) (s : State) : Result :=
  halfToReg vrt c (fun sl i => upper (n := 16) (addSat (fext s.params (sl.h vra i)) (fext s.params (sl.h vrb i)))) s

end Sys2Proof.Machine
end

