-- ==== Sys2Proof/Machine/Dispatch.lean ====
section
/-! DEFINITION. One arm for each constructor of Instr, in the order of spec/opcode_table.json: a direct call of the instruction's meaning. -/

namespace Sys2Proof.Machine

def exec (i : Instr) (s : State) : Host.Outcome State Fault Refusal :=
  match i with
  | .fxvmahm vrt vra vrb c => Sys2Proof.Machine.execFxvmahm vrt vra vrb c s
  | .fxvmabm vrt vra vrb c => Sys2Proof.Machine.execFxvmabm vrt vra vrb c s
  | .fxvmtacb vra c => Sys2Proof.Machine.execFxvmtacb vra c s
  | .fxvmtach vra c => Sys2Proof.Machine.execFxvmtach vra c s
  | .fxvmahfs vrt vra vrb c => Sys2Proof.Machine.execFxvmahfs vrt vra vrb c s
  | .fxvmabfs vrt vra vrb c => Sys2Proof.Machine.execFxvmabfs vrt vra vrb c s
  | .fxvmtacbf vra c => Sys2Proof.Machine.execFxvmtacbf vra c s
  | .fxvmtachf vra c => Sys2Proof.Machine.execFxvmtachf vra c s
  | .fxvmatachm vra vrb c => Sys2Proof.Machine.execFxvmatachm vra vrb c s
  | .fxvmatacbm vra vrb c => Sys2Proof.Machine.execFxvmatacbm vra vrb c s
  | .fxvmatachfs vra vrb c => Sys2Proof.Machine.execFxvmatachfs vra vrb c s
  | .fxvmatacbfs vra vrb c => Sys2Proof.Machine.execFxvmatacbfs vra vrb c s
  | .fxvmulhm vrt vra vrb c => Sys2Proof.Machine.execFxvmulhm vrt vra vrb c s
  | .fxvmulbm vrt vra vrb c => Sys2Proof.Machine.execFxvmulbm vrt vra vrb c s
  | .fxvmulhfs vrt vra vrb c => Sys2Proof.Machine.execFxvmulhfs vrt vra vrb c s
  | .fxvmulbfs vrt vra vrb c => Sys2Proof.Machine.execFxvmulbfs vrt vra vrb c s
  | .fxvmultachm vra vrb c => Sys2Proof.Machine.execFxvmultachm vra vrb c s
  | .fxvmultacbm vra vrb c => Sys2Proof.Machine.execFxvmultacbm vra vrb c s
  | .fxvmultachfs vra vrb c => Sys2Proof.Machine.execFxvmultachfs vra vrb c s
  | .fxvmultacbfs vra vrb c => Sys2Proof.Machine.execFxvmultacbfs vra vrb c s
  | .fxvinx vrt ra rb => Sys2Proof.Machine.execFxvinx vrt ra rb s
  | .fxvpckbu vrt vra vrb n => Sys2Proof.Machine.execFxvpckbu vrt vra vrb n s
  | .fxvoutx vrt ra rb => Sys2Proof.Machine.execFxvoutx vrt ra rb s
  | .fxvpckbl vrt vra vrb n => Sys2Proof.Machine.execFxvpckbl vrt vra vrb n s
  | .fxvsplath vrt ra => Sys2Proof.Machine.execFxvsplath vrt ra s
  | .fxvsplatb vrt ra => Sys2Proof.Machine.execFxvsplatb vrt ra s
  | .fxvupckbr vrt vra vrb n => Sys2Proof.Machine.execFxvupckbr vrt vra vrb n s
  | .fxvupckbl vrt vra vrb n => Sys2Proof.Machine.execFxvupckbl vrt vra vrb n s
  | .fxvcmphm vra => Sys2Proof.Machine.execFxvcmphm vra s
  | .fxvcmpb vra => Sys2Proof.Machine.execFxvcmpb vra s
  | .fxvshh vrt vra amount => Sys2Proof.Machine.execFxvshh vrt vra amount s
  | .fxvshb vrt vra amount => Sys2Proof.Machine.execFxvshb vrt vra amount s
  | .fxvsel vrt vra vrb c => Sys2Proof.Machine.execFxvsel vrt vra vrb c s
  | .fxvsubhm vrt vra vrb c => Sys2Proof.Machine.execFxvsubhm vrt vra vrb c s
  | .fxvsubbm vrt vra vrb c => Sys2Proof.Machine.execFxvsubbm vrt vra vrb c s
  | .fxvsubhfs vrt vra vrb c => Sys2Proof.Machine.execFxvsubhfs vrt vra vrb c s
  | .fxvsubbfs vrt vra vrb c => Sys2Proof.Machine.execFxvsubbfs vrt vra vrb c s
  | .fxvaddactachm vra c => Sys2Proof.Machine.execFxvaddactachm vra c s
  | .fxvaddactacb vra c => Sys2Proof.Machine.execFxvaddactacb vra c s
  | .fxvaddactachf vra c => Sys2Proof.Machine.execFxvaddactachf vra c s
  | .fxvaddactacbf vra c => Sys2Proof.Machine.execFxvaddactacbf vra c s
  | .fxvaddachm vrt vra c => Sys2Proof.Machine.execFxvaddachm vrt vra c s
  | .fxvaddacbm vrt vra c => Sys2Proof.Machine.execFxvaddacbm vrt vra c s
  | .fxvaddachfs vrt vra c => Sys2Proof.Machine.execFxvaddachfs vrt vra c s
  | .fxvaddacbfs vrt vra c => Sys2Proof.Machine.execFxvaddacbfs vrt vra c s
  | .fxvaddtachm vra vrb c => Sys2Proof.Machine.execFxvaddtachm vra vrb c s
  | .fxvaddtacb vra vrb c => Sys2Proof.Machine.execFxvaddtacb vra vrb c s
  | .fxvaddhm vrt vra vrb c => Sys2Proof.Machine.execFxvaddhm vrt vra vrb c s
  | .fxvaddbm vrt vra vrb c => Sys2Proof.Machine.execFxvaddbm vrt vra vrb c s
  | .fxvaddhfs vrt vra vrb c => Sys2Proof.Machine.execFxvaddhfs vrt vra vrb c s
  | .fxvaddbfs vrt vra vrb c => Sys2Proof.Machine.execFxvaddbfs vrt vra vrb c s
  | .fxvlax vrt ra rb => Sys2Proof.Machine.execFxvlax vrt ra rb s
  | .fxvstax vrt ra rb => Sys2Proof.Machine.execFxvstax vrt ra rb s

end Sys2Proof.Machine
end

