-- ==== Sys2Proof/Machine/Step.lean ====
section
/-! DEFINITION. One step of the machine (70_reset_and_hazards.md R276): fetch, decode, execute. -/

namespace Sys2Proof.Machine

/-- Fetch the word at pc from the program text, decode it, run the instruction; every check and `pc <- pc + 4` belong to the instruction's meaning (70_reset_and_hazards.md R276). -/
def step (s : State) : Host.Outcome State Fault Refusal :=
  match fetch s with
  | .error r => .refused r
  | .ok bs =>
    match decode bs with
    | .error e => .refused (decodeRefusal e)
    | .ok (i, _) => if unusedRefused s i bs then .refused .unusedFieldNonzero else exec i s

/-- `s` with the one word `w` (its low `nbits` bits, the others 0) loaded as the program text at pc. A pc that is no multiple of 4 holds no instruction (10_state.md R41) and is rounded down; any other stays. -/
def State.withFetchWord (s : State) (nbits w : Nat) : State :=
  { s with
    pc := BitVec.ofNat 32 (4 * (s.pc.toNat / 4))
    text :=
      { base := BitVec.ofNat 32 (4 * (s.pc.toNat / 4))
        bytes := bytesOfWord (BitVec.ofNat 32 (w % 2 ^ nbits)) } }

end Sys2Proof.Machine
end

