-- ==== Sys2Proof/Safety.lean ====
section
/-! DEFINITION. The terms the claims use: what a step leaves unchanged, what an instruction writes, element by element, the exact arithmetic the rules speak of, and what counts as a well-formed state and a safe step. -/

namespace Sys2Proof.Machine

/-- pc + 4 does not pass 2^32 (10_state.md R41). -/
def PcFits (s : State) : Prop := s.pc.toNat + 4 < 2 ^ 32

/-- Only slices (and pc and the count of completed instructions) may differ: the general-purpose registers, every byte of memory, the IO log, the program text, the platform and the parameters are the same. -/
structure OnlySlicesChange (s t : State) : Prop where
  gpr : t.gpr = s.gpr
  mem : ∀ a, t.mem.read a = s.mem.read a
  ioLog : t.ioLog = s.ioLog
  text : t.text = s.text
  platform : t.platform = s.platform
  params : t.params = s.params

/-- `t` has the slices of `s`, each related to its old self by `P` (given the slice's number). -/
def EachSlice (s t : State) (P : Nat → Slice → Slice → Prop) : Prop :=
  t.slices.length = s.slices.length ∧
    ∀ k sl tl, s.slices[k]? = some sl → t.slices[k]? = some tl → P k sl tl

/-- Every vector register but `vrt` is as it was, and so are the accumulator and the VCR. -/
def OnlyRegChanges (vrt : VReg) (sl tl : Slice) : Prop :=
  (∀ r, r ≠ vrt → tl.reg r = sl.reg r) ∧ tl.acc = sl.acc ∧ tl.vcr = sl.vcr

/-- Every vector register and the VCR are as they were. -/
def OnlyAccChanges (sl tl : Slice) : Prop :=
  (∀ r, tl.reg r = sl.reg r) ∧ tl.vcr = sl.vcr

/-- In every slice, halfword element i of `vrt` becomes `f` of the old slice and i where the condition holds and keeps its value elsewhere; nothing else changes. -/
def HalfRegWritten (s t : State) (vrt : VReg) (c : Cond) (f : Slice → Nat → Half) : Prop :=
  EachSlice s t (fun k sl tl =>
    (∀ i < 8, tl.h vrt i = if condH s.params s.retired k c sl.vcr i then f sl i else sl.h vrt i) ∧
      OnlyRegChanges vrt sl tl) ∧ OnlySlicesChange s t

/-- In every slice, word element i of the accumulator becomes `f` of the old slice and i where the condition holds and keeps its value elsewhere; nothing else changes. -/
def HalfAccWritten (s t : State) (c : Cond) (f : Slice → Nat → Word) : Prop :=
  EachSlice s t (fun k sl tl =>
    (∀ i < 8, tl.aw i = if condH s.params s.retired k c sl.vcr i then f sl i else sl.aw i) ∧
      OnlyAccChanges sl tl) ∧ OnlySlicesChange s t

/-- In every slice, byte element j of `vrt` becomes `f` of the old slice and j where the condition holds and keeps its value elsewhere; nothing else changes. -/
def ByteRegWritten (s t : State) (vrt : VReg) (c : Cond) (f : Slice → Nat → Byte) : Prop :=
  EachSlice s t (fun _ sl tl =>
    (∀ j < 16, tl.b vrt j = if condB c sl.vcr j then f sl j else sl.b vrt j) ∧
      OnlyRegChanges vrt sl tl) ∧ OnlySlicesChange s t

/-- In every slice, halfword element j of the accumulator becomes `f` of the old slice and j where the condition holds and keeps its value elsewhere; nothing else changes. -/
def ByteAccWritten (s t : State) (c : Cond) (f : Slice → Nat → Half) : Prop :=
  EachSlice s t (fun _ sl tl =>
    (∀ j < 16, tl.ah j = if condB c sl.vcr j then f sl j else sl.ah j) ∧
      OnlyAccChanges sl tl) ∧ OnlySlicesChange s t

/-- In every slice, byte element j of `vrt` becomes `f` of the slice's number, the old slice and j; nothing else changes in the slice. -/
def RegBytesAre (s t : State) (vrt : VReg) (f : Nat → Slice → Nat → Byte) : Prop :=
  EachSlice s t fun k sl tl => (∀ j < 16, tl.b vrt j = f k sl j) ∧ OnlyRegChanges vrt sl tl

/-- In every slice, halfword element i of `vrt` becomes `f` of the old slice and i; nothing else changes in the slice. -/
def RegHalvesAre (s t : State) (vrt : VReg) (f : Slice → Nat → Half) : Prop :=
  EachSlice s t fun _ sl tl => (∀ i < 8, tl.h vrt i = f sl i) ∧ OnlyRegChanges vrt sl tl

/-- z clamped to the N bit signed range. -/
def clamp (N : Nat) (z : Int) : Int := max (-2 ^ (N - 1)) (min z (2 ^ (N - 1) - 1))

/-- The product of two n bit fractions as an integer that stands for `W / 2^(2n-1)`: twice the product, but for -1 times -1 the largest number (00_scope.md R16). -/
def fractProduct (n : Nat) (a b : Int) : Int :=
  if a = -2 ^ (n - 1) ∧ b = -2 ^ (n - 1) then 2 ^ (2 * n - 1) - 1 else 2 * (a * b)

/-- The instruction has this XO and this format (30_encoding.md R96). -/
def HasOpcode (i : Instr) (xo : Nat) (f : Format) : Prop := i.xo = xo ∧ i.format = f

/-- An address of the platform: some region holds it (20_memory.md R69). -/
def Exists (rs : List Region) (a : Nat) : Prop := ∃ r ∈ rs, r.base ≤ a ∧ a < r.base + r.size

/-- The address is a multiple of FXV_MEM_ALIGN: of 16 * NUM_SLICES under `footprint`, of n under `bytes n` (20_memory.md R65, D17). -/
def Aligned (s : State) (ea : Nat) : Prop :=
  (s.params.memAlign = .footprint → ea % (16 * s.slices.length) = 0) ∧
    ∀ n, s.params.memAlign = .bytes n → ea % n = 0

/-- What fxvlax and fxvstax ask of the effective address: the footprint does not pass 2^32, the address is aligned, every byte exists (20_memory.md R65, R69, R70). -/
def AccessOk (s : State) (ea : Nat) : Prop :=
  ea + 16 * s.slices.length ≤ 2 ^ 32 ∧ Aligned s ea ∧ ∀ k < 16 * s.slices.length, Exists s.platform.ram (ea + k)

/-- No byte of the footprint belongs to the program text (20_memory.md R72). -/
def ClearOfText (s : State) (ea : Nat) : Prop :=
  ∀ k < 16 * s.slices.length, ¬(s.text.base.toNat ≤ ea + k ∧ ea + k < s.text.base.toNat + s.text.bytes.length)

/-- The condition of a halfword-conditional instruction, none for any other instruction (10_state.md R38, R39). -/
def halfCondition? : Instr → Option Cond
  | .fxvmahm _ _ _ c => some c
  | .fxvmatachm _ _ c => some c
  | .fxvmulhm _ _ _ c => some c
  | .fxvmultachm _ _ c => some c
  | .fxvsubhm _ _ _ c => some c
  | .fxvaddactachm _ c => some c
  | .fxvaddtachm _ _ c => some c
  | .fxvaddachm _ _ c => some c
  | .fxvaddhm _ _ _ c => some c
  | .fxvmtach _ c => some c
  | .fxvmahfs _ _ _ c => some c
  | .fxvmtachf _ c => some c
  | .fxvmatachfs _ _ c => some c
  | .fxvmulhfs _ _ _ c => some c
  | .fxvmultachfs _ _ c => some c
  | .fxvsubhfs _ _ _ c => some c
  | .fxvaddactachf _ c => some c
  | .fxvaddachfs _ _ c => some c
  | .fxvaddhfs _ _ _ c => some c
  | _ => none

/-- Two of the four bits that the selected area of a VCR holds for halfword element e differ (10_state.md R38). -/
def BitsDiffer (v : VcrBits) (a : Area) (e : Nat) : Prop :=
  ∃ q < 4, ∃ q' < 4, vcrBit v a (4 * e + q) ≠ vcrBit v a (4 * e + q')

/-- Some slice has a halfword element for which the four bits of the area that `c` selects differ; never for C = 0, which selects none (10_state.md R38). -/
def ReadsMixed (s : State) (c : Cond) : Prop :=
  ∃ a, condArea c = some a ∧ ∃ sl ∈ s.slices, ∃ e < 8, BitsDiffer sl.vcr a e

/-- The VCR does not stop a halfword-conditional instruction with condition `c`: gaps run with free values, or VCR_HW_READ says what a mixed field reads as, or no field that it reads is mixed (10_state.md R38, D11; notes/assumptions/14.md, 18.md). -/
def HalfConditionReadable (s : State) (c : Cond) : Prop :=
  s.params.onGap = .freeValue ∨ s.params.vcrHwRead ≠ .unspecified ∨ ¬ReadsMixed s c

/-- The instructions whose names contain `tac`, which alone write the accumulator (10_state.md R35). -/
def writesAcc : Instr → Bool
  | .fxvmatachm .. => true
  | .fxvmultachm .. => true
  | .fxvaddactachm .. => true
  | .fxvaddtachm .. => true
  | .fxvmtach .. => true
  | .fxvmatachfs .. => true
  | .fxvmultachfs .. => true
  | .fxvaddactachf .. => true
  | .fxvmtachf .. => true
  | .fxvmatacbm .. => true
  | .fxvmultacbm .. => true
  | .fxvaddactacb .. => true
  | .fxvaddtacb .. => true
  | .fxvmtacb .. => true
  | .fxvmatacbfs .. => true
  | .fxvmultacbfs .. => true
  | .fxvaddactacbf .. => true
  | .fxvmtacbf .. => true
  | _ => false

/-- The two compares, which alone write the VCR (10_state.md R37). -/
def writesVcr : Instr → Bool
  | .fxvcmphm .. => true
  | .fxvcmpb .. => true
  | _ => false

/-- The instruction uses the VRT field (30_encoding.md R96, "fields used"): every one but the instructions named `tac` and the compares. -/
def usesVrt (i : Instr) : Bool := !writesAcc i && !writesVcr i

/-- The instruction uses the VRB field, as a register, RB or a number (30_encoding.md R96, "fields used"). The sources of the unpacks are not defined, so none of their fields counts as unused (notes/assumptions/8.md). -/
def usesVrb : Instr → Bool
  | .fxvmtach .. => false
  | .fxvmtacb .. => false
  | .fxvmtachf .. => false
  | .fxvmtacbf .. => false
  | .fxvaddactachm .. => false
  | .fxvaddactacb .. => false
  | .fxvaddactachf .. => false
  | .fxvaddactacbf .. => false
  | .fxvaddachm .. => false
  | .fxvaddacbm .. => false
  | .fxvaddachfs .. => false
  | .fxvaddacbfs .. => false
  | .fxvcmphm .. => false
  | .fxvcmpb .. => false
  | .fxvsplath .. => false
  | .fxvsplatb .. => false
  | _ => true

/-- The instruction uses the C field, as a condition or a number (30_encoding.md R96, "fields used"). The unpacks count as using it (notes/assumptions/8.md). -/
def usesC : Instr → Bool
  | .fxvcmphm .. => false
  | .fxvcmpb .. => false
  | .fxvsplath .. => false
  | .fxvsplatb .. => false
  | .fxvshh .. => false
  | .fxvshb .. => false
  | .fxvlax .. => false
  | .fxvstax .. => false
  | .fxvinx .. => false
  | .fxvoutx .. => false
  | _ => true

/-- A field of the word that the instruction does not use is not 0: VRT in bits 25:21, VRB in bits 15:11, C in bits 1:0 (30_encoding.md R91, R96, R98). Every instruction uses VRA or RA. -/
def UnusedNonzero (i : Instr) (w : Word) : Prop :=
  (usesVrt i = false ∧ w.extractLsb' 21 5 ≠ 0) ∨ (usesVrb i = false ∧ w.extractLsb' 11 5 ≠ 0) ∨
    (usesC i = false ∧ w.extractLsb' 0 2 ≠ 0)

/-- The two bits of a byte element agree in every area; both kinds of compare leave the VCR so (10_state.md R37, R38). -/
def VcrPaired (v : VcrBits) : Prop := ∀ (a : Area), ∀ j < 16, vcrBit v a (2 * j) = vcrBit v a (2 * j + 1)

/-- No nibble has two of its three bits set; a compare sets exactly one (10_state.md R37). -/
def VcrExclusive (v : VcrBits) : Prop :=
  ∀ (a a' : Area), ∀ k < 32, vcrBit v a k = true → vcrBit v a' k = true → a = a'

/-- What every state of a run satisfies: there is a slice (00_scope.md R5), memory is in canonical form, pc is a multiple of 4 (10_state.md R41), and every VCR is one that compares leave, or zero (R37). -/
structure Inv (s : State) : Prop where
  someSlice : 0 < s.slices.length
  memWf : s.mem.wf = true
  pcAligned : s.pc.toNat % 4 = 0
  vcrPaired : ∀ sl ∈ s.slices, VcrPaired sl.vcr
  vcrExclusive : ∀ sl ∈ s.slices, VcrExclusive sl.vcr

/-- A step is safe when it does not end in a fault. -/
def SafeStep (s : State) : Prop := ∀ f, step s ≠ .fault f

end Sys2Proof.Machine
end

