-- ==== Sys2Proof/Certificates/Slice0/Obligations.lean ====
section
/-! DEFINITION. The statements for the provers. A statement whose docstring names a decision D<n> of the spec, or a log entry, rests on it for the clause it names. -/

open Sys2Proof Sys2Proof.Machine

/-- Decode and encode agree for every well-formed instruction, as a word and as bytes followed by any others. The layout is the spec's decision D1 (notes/assumptions/7.md, PRESUMED). -/
def Obligations.DecodeEncodeRoundTrip : Prop :=
  ∀ i : Instr, i.wellFormed = true → decodeWord (encode i) = .ok i ∧
    ∀ rest : List Byte, decode (encodeBytes i ++ rest) = .ok (i, rest)

/-- Which words are FXV instructions, and that what they decode to fits its fields. The layout is the spec's decision D1 (notes/assumptions/7.md, PRESUMED), that unused fields are ignored its decision D2 (notes/assumptions/8.md). -/
def Obligations.WordIsFxvExactlyWhenOpcodeAssigned : Prop :=
  ∀ (w : Word) (X : Nat),
    ((∃ i, decodeWord w = .ok i ∧ i.xo = X ∧ i.wellFormed = true) ↔
      (X ∈ [12, 13, 14, 15, 28, 29, 30, 31, 44, 45, 60, 61, 76, 77, 92, 93, 108, 109,
        124, 125, 236, 239, 252, 255, 268, 269, 271, 287, 300, 301, 316, 317, 319, 332, 333, 348,
        349, 364, 365, 380, 381, 396, 397, 412, 413, 428, 429, 460, 461, 476, 477, 492, 508] ∧
        w.extractLsb' 26 6 = 4#6 ∧ w.extractLsb' 2 9 = BitVec.ofNat 9 X))

/-- A few words of 95_test_vectors.md T1 and its decoding checks (a sanity statement). -/
def Obligations.WrittenOutWordsDecode : Prop :=
  decodeTableWord 32 0x10221831 = some (.fxvmahm 1 2 3 .gt) ∧
  decodeTableWord 32 0x10221830 = some (.fxvmahm 1 2 3 .always) ∧
  decodeTableWord 32 0x100204B4 = some (.fxvcmpb 2) ∧
  decodeTableWord 32 0x10220430 = some (.fxvsplath 1 2) ∧
  decodeTableWord 32 0x13FFFFF3 = some (.fxvstax 31 31 31) ∧
  decodeTableWord 32 0x10000000 = none ∧
  decodeTableWord 32 0x7C0004B0 = none

/-- One step fetches the word at pc from the program text, decodes it and runs the instruction (the execution model is the spec's decision D27, notes/assumptions/28.md; the program text is held in State, notes/assumptions/6.md). -/
def Obligations.StepRunsDecodedInstruction : Prop :=
  ∀ (s : State) (w : Word) (i : Instr),
    s.pc.toNat % 4 = 0 → s.text.base.toNat ≤ s.pc.toNat →
    (s.text.bytes.drop (s.pc.toNat - s.text.base.toNat)).take 4 = bytesOfWord w →
    decodeWord w = .ok i → (s.params.unusedFields = .ignore ∨ ¬UnusedNonzero i w) →
    step s = exec i s

/-- The word that withFetchWord loads is the one the next step runs, from any state (how a program comes to run is the model's, notes/assumptions/6.md, DESIGN CHOICE). -/
def Obligations.LoadedWordRunsNext : Prop :=
  ∀ (s : State) (nbits w : Nat) (i : Instr), s.params.unusedFields = .ignore →
    decodeTableWord nbits w = some i → step (s.withFetchWord nbits w) = exec i (s.withFetchWord nbits w)

/-- Where a step stops without running an instruction. That these are stops is the spec's decisions D4 and D28 (notes/assumptions/31.md); the refusal of a nonzero unused field is the cautious value of its decision D2 (notes/assumptions/8.md). -/
def Obligations.StepStopsWhereNoInstructionStands : Prop :=
  ∀ s : State,
    (s.pc.toNat = s.text.base.toNat + s.text.bytes.length → step s = .refused .runEnded) ∧
    (s.pc.toNat ≠ s.text.base.toNat + s.text.bytes.length →
      (s.pc.toNat < s.text.base.toNat ∨ s.text.base.toNat + s.text.bytes.length < s.pc.toNat + 4 ∨ s.pc.toNat % 4 ≠ 0) →
      step s = .refused .outsideText) ∧
    (∀ w : Word, s.pc.toNat % 4 = 0 → s.text.base.toNat ≤ s.pc.toNat →
      (s.text.bytes.drop (s.pc.toNat - s.text.base.toNat)).take 4 = bytesOfWord w →
      (w.extractLsb' 26 6 ≠ 4#6 → step s = .refused .notFxv) ∧
      (w.extractLsb' 26 6 = 4#6 → opRow? (w.extractLsb' 2 9).toNat = none → step s = .refused .unassignedXo) ∧
      (∀ i, decodeWord w = .ok i → s.params.unusedFields = .refuseNonzero → UnusedNonzero i w →
        step s = .refused .unusedFieldNonzero))

/-- The two views of a vector register and of the accumulator (that the accumulator's views alias is the spec's decision D6, notes/assumptions/22.md). -/
def Obligations.RegisterViewsAlias : Prop :=
  (∀ (v : VecBits), ∀ i < 8, halfOf v i = byteOf v (2 * i) ++ byteOf v (2 * i + 1) ∧
      halfOf v i = v.extractLsb' (112 - 16 * i) 16 ∧ byteOf v (2 * i) = v.extractLsb' (120 - 16 * i) 8) ∧
  (∀ (v : AccBits), ∀ i < 8, accWordOf v i = accHalfOf v (2 * i) ++ accHalfOf v (2 * i + 1) ∧
      accWordOf v i = v.extractLsb' (224 - 32 * i) 32)

/-- `conditional` as the byte and the halfword instructions use it: the C field selects always, gt, lt or eq. -/
def Obligations.ConditionalReadsSelectedBit : Prop :=
  (∀ (v : VcrBits) (j : Nat), condB (condOfField 0) v j = true ∧ condB (condOfField 1) v j = vcrBit v .gt (2 * j) ∧
      condB (condOfField 2) v j = vcrBit v .lt (2 * j) ∧ condB (condOfField 3) v j = vcrBit v .eq (2 * j)) ∧
  (∀ (p : Config.Params) (r k : Nat) (v : VcrBits) (i : Nat) (x : Bool), condH p r k (condOfField 0) v i = true ∧
      ((∀ q < 4, vcrBit v .gt (4 * i + q) = x) → condH p r k (condOfField 1) v i = x) ∧
      ((∀ q < 4, vcrBit v .lt (4 * i + q) = x) → condH p r k (condOfField 2) v i = x) ∧
      ((∀ q < 4, vcrBit v .eq (4 * i + q) = x) → condH p r k (condOfField 3) v i = x))

/-- What a halfword condition reads from a field whose bits differ under the three stated values of VCR_HW_READ (the spec's decision D11; notes/assumptions/14.md). -/
def Obligations.MixedFieldReadFollowsParameter : Prop :=
  ∀ (p : Config.Params) (r k : Nat) (v : VcrBits) (i : Nat) (c : Cond) (a : Area) (q q' : Nat),
    condArea c = some a → q < 4 → q' < 4 → vcrBit v a (4 * i + q) ≠ vcrBit v a (4 * i + q') →
    (p.vcrHwRead = .allBits → condH p r k c v i = false) ∧
    (p.vcrHwRead = .anyBit → condH p r k c v i = true) ∧
    (p.vcrHwRead = .firstBit → condH p r k c v i = vcrBit v a (4 * i))

/-- `mult_sat_fract` for halfwords and bytes: twice the product, exactly, except for -1 times -1. -/
def Obligations.MultSatFractIsExactOrClamps : Prop :=
  (∀ a b : Half, (multSatFract a b).toInt = if a.toInt = -32768 ∧ b.toInt = -32768 then 2147483647 else 2 * (a.toInt * b.toInt)) ∧
  (∀ a b : Byte, (multSatFract a b).toInt = if a.toInt = -128 ∧ b.toInt = -128 then 32767 else 2 * (a.toInt * b.toInt))

/-- `add_sat` at the two double-precision widths. -/
def Obligations.AddSatClamps : Prop :=
  (∀ a b : Word, (addSat a b).toInt = max (-2147483648) (min (a.toInt + b.toInt) 2147483647)) ∧
  (∀ a b : Half, (addSat a b).toInt = max (-32768) (min (a.toInt + b.toInt) 32767))

/-- R121 and R141. -/
def Obligations.MultiplyAccumulateModuloResult : Prop :=
  (∀ (vrt vra vrb : VReg) (c : Cond) (s : State), HasOpcode (.fxvmahm vrt vra vrb c) 12 .V ∧
    (PcFits s → HalfConditionReadable s c → ∃ t, exec (.fxvmahm vrt vra vrb c) s = .next t ∧
      HalfRegWritten s t vrt c fun sl i => BitVec.ofInt 16 ((sl.h vra i).toInt * (sl.h vrb i).toInt + (sl.aw i).toInt))) ∧
  (∀ (vrt vra vrb : VReg) (c : Cond) (s : State), HasOpcode (.fxvmabm vrt vra vrb c) 13 .V ∧
    (PcFits s → ∃ t, exec (.fxvmabm vrt vra vrb c) s = .next t ∧
      ByteRegWritten s t vrt c fun sl j => BitVec.ofInt 8 ((sl.b vra j).toInt * (sl.b vrb j).toInt + (sl.ah j).toInt)))

/-- fxvmatachm and fxvmatacbm. The signed product is the spec's decision D7 (notes/assumptions/21.md). -/
def Obligations.MultiplyAccumulateToAccModuloResult : Prop :=
  (∀ (vra vrb : VReg) (c : Cond) (s : State), HasOpcode (.fxvmatachm vra vrb c) 44 .V ∧
    (PcFits s → HalfConditionReadable s c → ∃ t, exec (.fxvmatachm vra vrb c) s = .next t ∧
      HalfAccWritten s t c fun sl i => BitVec.ofInt 32 ((sl.h vra i).toInt * (sl.h vrb i).toInt + (sl.aw i).toInt))) ∧
  (∀ (vra vrb : VReg) (c : Cond) (s : State), HasOpcode (.fxvmatacbm vra vrb c) 45 .V ∧
    (PcFits s → ∃ t, exec (.fxvmatacbm vra vrb c) s = .next t ∧
      ByteAccWritten s t c fun sl j => BitVec.ofInt 16 ((sl.b vra j).toInt * (sl.b vrb j).toInt + (sl.ah j).toInt)))

/-- R123 and R143. -/
def Obligations.MultiplyModuloResult : Prop :=
  (∀ (vrt vra vrb : VReg) (c : Cond) (s : State), HasOpcode (.fxvmulhm vrt vra vrb c) 76 .V ∧
    (PcFits s → HalfConditionReadable s c → ∃ t, exec (.fxvmulhm vrt vra vrb c) s = .next t ∧
      HalfRegWritten s t vrt c fun sl i => BitVec.ofInt 16 ((sl.h vra i).toInt * (sl.h vrb i).toInt))) ∧
  (∀ (vrt vra vrb : VReg) (c : Cond) (s : State), HasOpcode (.fxvmulbm vrt vra vrb c) 77 .V ∧
    (PcFits s → ∃ t, exec (.fxvmulbm vrt vra vrb c) s = .next t ∧
      ByteRegWritten s t vrt c fun sl j => BitVec.ofInt 8 ((sl.b vra j).toInt * (sl.b vrb j).toInt)))

/-- fxvmultachm and fxvmultacbm. The signed product is the spec's decision D7 (notes/assumptions/21.md). -/
def Obligations.MultiplyToAccModuloResult : Prop :=
  (∀ (vra vrb : VReg) (c : Cond) (s : State), HasOpcode (.fxvmultachm vra vrb c) 108 .V ∧
    (PcFits s → HalfConditionReadable s c → ∃ t, exec (.fxvmultachm vra vrb c) s = .next t ∧
      HalfAccWritten s t c fun sl i => BitVec.ofInt 32 ((sl.h vra i).toInt * (sl.h vrb i).toInt))) ∧
  (∀ (vra vrb : VReg) (c : Cond) (s : State), HasOpcode (.fxvmultacbm vra vrb c) 109 .V ∧
    (PcFits s → ∃ t, exec (.fxvmultacbm vra vrb c) s = .next t ∧
      ByteAccWritten s t c fun sl j => BitVec.ofInt 16 ((sl.b vra j).toInt * (sl.b vrb j).toInt)))

/-- R125 and R145. -/
def Obligations.SubtractModuloResult : Prop :=
  (∀ (vrt vra vrb : VReg) (c : Cond) (s : State), HasOpcode (.fxvsubhm vrt vra vrb c) 332 .V ∧
    (PcFits s → HalfConditionReadable s c → ∃ t, exec (.fxvsubhm vrt vra vrb c) s = .next t ∧
      HalfRegWritten s t vrt c fun sl i => BitVec.ofInt 16 ((sl.h vra i).toInt - (sl.h vrb i).toInt))) ∧
  (∀ (vrt vra vrb : VReg) (c : Cond) (s : State), HasOpcode (.fxvsubbm vrt vra vrb c) 333 .V ∧
    (PcFits s → ∃ t, exec (.fxvsubbm vrt vra vrb c) s = .next t ∧
      ByteRegWritten s t vrt c fun sl j => BitVec.ofInt 8 ((sl.b vra j).toInt - (sl.b vrb j).toInt)))

/-- R126 and R146. -/
def Obligations.AddAccToAccModuloResult : Prop :=
  (∀ (vra : VReg) (c : Cond) (s : State), HasOpcode (.fxvaddactachm vra c) 364 .V ∧
    (PcFits s → HalfConditionReadable s c → ∃ t, exec (.fxvaddactachm vra c) s = .next t ∧
      HalfAccWritten s t c fun sl i => BitVec.ofInt 32 ((sl.h vra i).toInt + (sl.aw i).toInt))) ∧
  (∀ (vra : VReg) (c : Cond) (s : State), HasOpcode (.fxvaddactacb vra c) 365 .V ∧
    (PcFits s → ∃ t, exec (.fxvaddactacb vra c) s = .next t ∧
      ByteAccWritten s t c fun sl j => BitVec.ofInt 16 ((sl.b vra j).toInt + (sl.ah j).toInt)))

/-- R127 and R147. -/
def Obligations.AddToAccModuloResult : Prop :=
  (∀ (vra vrb : VReg) (c : Cond) (s : State), HasOpcode (.fxvaddtachm vra vrb c) 428 .V ∧
    (PcFits s → HalfConditionReadable s c → ∃ t, exec (.fxvaddtachm vra vrb c) s = .next t ∧
      HalfAccWritten s t c fun sl i => BitVec.ofInt 32 ((sl.h vra i).toInt + (sl.h vrb i).toInt))) ∧
  (∀ (vra vrb : VReg) (c : Cond) (s : State), HasOpcode (.fxvaddtacb vra vrb c) 429 .V ∧
    (PcFits s → ∃ t, exec (.fxvaddtacb vra vrb c) s = .next t ∧
      ByteAccWritten s t c fun sl j => BitVec.ofInt 16 ((sl.b vra j).toInt + (sl.b vrb j).toInt)))

/-- R128 and R148. -/
def Obligations.AddAccModuloResult : Prop :=
  (∀ (vrt vra : VReg) (c : Cond) (s : State), HasOpcode (.fxvaddachm vrt vra c) 396 .V ∧
    (PcFits s → HalfConditionReadable s c → ∃ t, exec (.fxvaddachm vrt vra c) s = .next t ∧
      HalfRegWritten s t vrt c fun sl i => BitVec.ofInt 16 ((sl.h vra i).toInt + (sl.aw i).toInt))) ∧
  (∀ (vrt vra : VReg) (c : Cond) (s : State), HasOpcode (.fxvaddacbm vrt vra c) 397 .V ∧
    (PcFits s → ∃ t, exec (.fxvaddacbm vrt vra c) s = .next t ∧
      ByteRegWritten s t vrt c fun sl j => BitVec.ofInt 8 ((sl.b vra j).toInt + (sl.ah j).toInt)))

/-- R129 and R149. -/
def Obligations.AddModuloResult : Prop :=
  (∀ (vrt vra vrb : VReg) (c : Cond) (s : State), HasOpcode (.fxvaddhm vrt vra vrb c) 460 .V ∧
    (PcFits s → HalfConditionReadable s c → ∃ t, exec (.fxvaddhm vrt vra vrb c) s = .next t ∧
      HalfRegWritten s t vrt c fun sl i => BitVec.ofInt 16 ((sl.h vra i).toInt + (sl.h vrb i).toInt))) ∧
  (∀ (vrt vra vrb : VReg) (c : Cond) (s : State), HasOpcode (.fxvaddbm vrt vra vrb c) 461 .V ∧
    (PcFits s → ∃ t, exec (.fxvaddbm vrt vra vrb c) s = .next t ∧
      ByteRegWritten s t vrt c fun sl j => BitVec.ofInt 8 ((sl.b vra j).toInt + (sl.b vrb j).toInt)))

/-- fxvmtach and fxvmtacb. The upper half is the parameter MTAC_EXTEND, the spec's decision D8 (notes/assumptions/11.md). -/
def Obligations.MoveToAccResult : Prop :=
  (∀ (vra : VReg) (c : Cond) (s : State), HasOpcode (.fxvmtach vra c) 15 .V ∧
    (PcFits s → HalfConditionReadable s c → ∃ t, exec (.fxvmtach vra c) s = .next t ∧
      HalfAccWritten s t c fun sl i => if s.params.mtacExtend = .sign then (sl.h vra i).signExtend 32 else (sl.h vra i).zeroExtend 32)) ∧
  (∀ (vra : VReg) (c : Cond) (s : State), HasOpcode (.fxvmtacb vra c) 14 .V ∧
    (PcFits s → ∃ t, exec (.fxvmtacb vra c) s = .next t ∧
      ByteAccWritten s t c fun sl j => if s.params.mtacExtend = .sign then (sl.b vra j).signExtend 16 else (sl.b vra j).zeroExtend 16))

/-- R161 and R181. -/
def Obligations.MultiplyAccumulateFractResult : Prop :=
  (∀ (vrt vra vrb : VReg) (c : Cond) (s : State), HasOpcode (.fxvmahfs vrt vra vrb c) 28 .V ∧
    (PcFits s → HalfConditionReadable s c → ∃ t, exec (.fxvmahfs vrt vra vrb c) s = .next t ∧
      HalfRegWritten s t vrt c fun sl i => BitVec.ofInt 16 (clamp 32 ((sl.aw i).toInt + fractProduct 16 (sl.h vra i).toInt (sl.h vrb i).toInt) / 65536))) ∧
  (∀ (vrt vra vrb : VReg) (c : Cond) (s : State), HasOpcode (.fxvmabfs vrt vra vrb c) 29 .V ∧
    (PcFits s → ∃ t, exec (.fxvmabfs vrt vra vrb c) s = .next t ∧
      ByteRegWritten s t vrt c fun sl j => BitVec.ofInt 8 (clamp 16 ((sl.ah j).toInt + fractProduct 8 (sl.b vra j).toInt (sl.b vrb j).toInt) / 256)))

/-- R162 and R182. -/
def Obligations.MoveToAccFractResult : Prop :=
  (∀ (vra : VReg) (c : Cond) (s : State), HasOpcode (.fxvmtachf vra c) 31 .V ∧
    (PcFits s → HalfConditionReadable s c → ∃ t, exec (.fxvmtachf vra c) s = .next t ∧
      HalfAccWritten s t c fun sl i => BitVec.ofInt 32 ((sl.h vra i).toInt * 65536))) ∧
  (∀ (vra : VReg) (c : Cond) (s : State), HasOpcode (.fxvmtacbf vra c) 30 .V ∧
    (PcFits s → ∃ t, exec (.fxvmtacbf vra c) s = .next t ∧
      ByteAccWritten s t c fun sl j => BitVec.ofInt 16 ((sl.b vra j).toInt * 256)))

/-- R163 and R183. -/
def Obligations.MultiplyAccumulateToAccFractResult : Prop :=
  (∀ (vra vrb : VReg) (c : Cond) (s : State), HasOpcode (.fxvmatachfs vra vrb c) 60 .V ∧
    (PcFits s → HalfConditionReadable s c → ∃ t, exec (.fxvmatachfs vra vrb c) s = .next t ∧
      HalfAccWritten s t c fun sl i => BitVec.ofInt 32 (clamp 32 ((sl.aw i).toInt + fractProduct 16 (sl.h vra i).toInt (sl.h vrb i).toInt)))) ∧
  (∀ (vra vrb : VReg) (c : Cond) (s : State), HasOpcode (.fxvmatacbfs vra vrb c) 61 .V ∧
    (PcFits s → ∃ t, exec (.fxvmatacbfs vra vrb c) s = .next t ∧
      ByteAccWritten s t c fun sl j => BitVec.ofInt 16 (clamp 16 ((sl.ah j).toInt + fractProduct 8 (sl.b vra j).toInt (sl.b vrb j).toInt))))

/-- R164 and R184. -/
def Obligations.MultiplyFractResult : Prop :=
  (∀ (vrt vra vrb : VReg) (c : Cond) (s : State), HasOpcode (.fxvmulhfs vrt vra vrb c) 92 .V ∧
    (PcFits s → HalfConditionReadable s c → ∃ t, exec (.fxvmulhfs vrt vra vrb c) s = .next t ∧
      HalfRegWritten s t vrt c fun sl i => BitVec.ofInt 16 (fractProduct 16 (sl.h vra i).toInt (sl.h vrb i).toInt / 65536))) ∧
  (∀ (vrt vra vrb : VReg) (c : Cond) (s : State), HasOpcode (.fxvmulbfs vrt vra vrb c) 93 .V ∧
    (PcFits s → ∃ t, exec (.fxvmulbfs vrt vra vrb c) s = .next t ∧
      ByteRegWritten s t vrt c fun sl j => BitVec.ofInt 8 (fractProduct 8 (sl.b vra j).toInt (sl.b vrb j).toInt / 256)))

/-- R165 and R185. -/
def Obligations.MultiplyToAccFractResult : Prop :=
  (∀ (vra vrb : VReg) (c : Cond) (s : State), HasOpcode (.fxvmultachfs vra vrb c) 124 .V ∧
    (PcFits s → HalfConditionReadable s c → ∃ t, exec (.fxvmultachfs vra vrb c) s = .next t ∧
      HalfAccWritten s t c fun sl i => BitVec.ofInt 32 (fractProduct 16 (sl.h vra i).toInt (sl.h vrb i).toInt))) ∧
  (∀ (vra vrb : VReg) (c : Cond) (s : State), HasOpcode (.fxvmultacbfs vra vrb c) 125 .V ∧
    (PcFits s → ∃ t, exec (.fxvmultacbfs vra vrb c) s = .next t ∧
      ByteAccWritten s t c fun sl j => BitVec.ofInt 16 (fractProduct 8 (sl.b vra j).toInt (sl.b vrb j).toInt)))

/-- fxvsubhfs and fxvsubbfs under both values of FRACT_ALIGN and of SUBFS_NEG, the spec's decisions D9 and D10 (notes/assumptions/12.md, 13.md). -/
def Obligations.SubtractFractResult : Prop :=
  (∀ (vrt vra vrb : VReg) (c : Cond) (s : State), HasOpcode (.fxvsubhfs vrt vra vrb c) 348 .V ∧
    (PcFits s → HalfConditionReadable s c → ∃ t, exec (.fxvsubhfs vrt vra vrb c) s = .next t ∧
      HalfRegWritten s t vrt c fun sl i => BitVec.ofInt 16 (match s.params.fractAlign, s.params.subfsNeg with
        | .left, .exact => clamp 16 ((sl.h vra i).toInt - (sl.h vrb i).toInt)
        | .left, .wrap => clamp 16 ((sl.h vra i).toInt + (BitVec.ofInt 16 (-(sl.h vrb i).toInt)).toInt)
        | .right, .exact => ((sl.h vra i).toInt - (sl.h vrb i).toInt) / 65536
        | .right, .wrap => ((sl.h vra i).toInt + (BitVec.ofInt 16 (-(sl.h vrb i).toInt)).toInt) / 65536))) ∧
  (∀ (vrt vra vrb : VReg) (c : Cond) (s : State), HasOpcode (.fxvsubbfs vrt vra vrb c) 349 .V ∧
    (PcFits s → ∃ t, exec (.fxvsubbfs vrt vra vrb c) s = .next t ∧
      ByteRegWritten s t vrt c fun sl j => BitVec.ofInt 8 (match s.params.fractAlign, s.params.subfsNeg with
        | .left, .exact => clamp 8 ((sl.b vra j).toInt - (sl.b vrb j).toInt)
        | .left, .wrap => clamp 8 ((sl.b vra j).toInt + (BitVec.ofInt 8 (-(sl.b vrb j).toInt)).toInt)
        | .right, .exact => ((sl.b vra j).toInt - (sl.b vrb j).toInt) / 256
        | .right, .wrap => ((sl.b vra j).toInt + (BitVec.ofInt 8 (-(sl.b vrb j).toInt)).toInt) / 256)))

/-- fxvaddactachf and fxvaddactacbf under both values of FRACT_ALIGN, the spec's decision D9 (notes/assumptions/12.md). -/
def Obligations.AddAccToAccFractResult : Prop :=
  (∀ (vra : VReg) (c : Cond) (s : State), HasOpcode (.fxvaddactachf vra c) 380 .V ∧
    (PcFits s → HalfConditionReadable s c → ∃ t, exec (.fxvaddactachf vra c) s = .next t ∧
      HalfAccWritten s t c fun sl i => BitVec.ofInt 32 (clamp 32 ((sl.h vra i).toInt * (if s.params.fractAlign = .left then 65536 else 1) + (sl.aw i).toInt)))) ∧
  (∀ (vra : VReg) (c : Cond) (s : State), HasOpcode (.fxvaddactacbf vra c) 381 .V ∧
    (PcFits s → ∃ t, exec (.fxvaddactacbf vra c) s = .next t ∧
      ByteAccWritten s t c fun sl j => BitVec.ofInt 16 (clamp 16 ((sl.b vra j).toInt * (if s.params.fractAlign = .left then 256 else 1) + (sl.ah j).toInt))))

/-- fxvaddachfs and fxvaddacbfs under both values of FRACT_ALIGN, the spec's decision D9 (notes/assumptions/12.md). -/
def Obligations.AddAccFractResult : Prop :=
  (∀ (vrt vra : VReg) (c : Cond) (s : State), HasOpcode (.fxvaddachfs vrt vra c) 412 .V ∧
    (PcFits s → HalfConditionReadable s c → ∃ t, exec (.fxvaddachfs vrt vra c) s = .next t ∧
      HalfRegWritten s t vrt c fun sl i => BitVec.ofInt 16 (if s.params.fractAlign = .left then clamp 16 ((sl.h vra i).toInt + (sl.aw i).toInt / 65536)
        else clamp 32 ((sl.h vra i).toInt + (sl.aw i).toInt) / 65536))) ∧
  (∀ (vrt vra : VReg) (c : Cond) (s : State), HasOpcode (.fxvaddacbfs vrt vra c) 413 .V ∧
    (PcFits s → ∃ t, exec (.fxvaddacbfs vrt vra c) s = .next t ∧
      ByteRegWritten s t vrt c fun sl j => BitVec.ofInt 8 (if s.params.fractAlign = .left then clamp 8 ((sl.b vra j).toInt + (sl.ah j).toInt / 256)
        else clamp 16 ((sl.b vra j).toInt + (sl.ah j).toInt) / 256)))

/-- fxvaddhfs and fxvaddbfs under both values of FRACT_ALIGN, the spec's decision D9 (notes/assumptions/12.md). -/
def Obligations.AddFractResult : Prop :=
  (∀ (vrt vra vrb : VReg) (c : Cond) (s : State), HasOpcode (.fxvaddhfs vrt vra vrb c) 476 .V ∧
    (PcFits s → HalfConditionReadable s c → ∃ t, exec (.fxvaddhfs vrt vra vrb c) s = .next t ∧
      HalfRegWritten s t vrt c fun sl i => BitVec.ofInt 16 (if s.params.fractAlign = .left then clamp 16 ((sl.h vra i).toInt + (sl.h vrb i).toInt) else ((sl.h vra i).toInt + (sl.h vrb i).toInt) / 65536))) ∧
  (∀ (vrt vra vrb : VReg) (c : Cond) (s : State), HasOpcode (.fxvaddbfs vrt vra vrb c) 477 .V ∧
    (PcFits s → ∃ t, exec (.fxvaddbfs vrt vra vrb c) s = .next t ∧
      ByteRegWritten s t vrt c fun sl j => BitVec.ofInt 8 (if s.params.fractAlign = .left then clamp 8 ((sl.b vra j).toInt + (sl.b vrb j).toInt) else ((sl.b vra j).toInt + (sl.b vrb j).toInt) / 256)))

/-- R130 and R150. -/
def Obligations.CompareResult : Prop :=
  (∀ (vra : VReg) (s : State), HasOpcode (.fxvcmphm vra) 300 .V ∧
    (PcFits s → ∃ t, exec (.fxvcmphm vra) s = .next t ∧ OnlySlicesChange s t ∧
      EachSlice s t fun _ sl tl => (∀ r, tl.reg r = sl.reg r) ∧ tl.acc = sl.acc ∧
        ∀ k < 32, vcrBit tl.vcr .eq k = decide ((sl.h vra (k / 4)).toInt = 0) ∧ vcrBit tl.vcr .gt k = decide ((sl.h vra (k / 4)).toInt > 0) ∧
          vcrBit tl.vcr .lt k = decide ((sl.h vra (k / 4)).toInt < 0))) ∧
  (∀ (vra : VReg) (s : State), HasOpcode (.fxvcmpb vra) 301 .V ∧
    (PcFits s → ∃ t, exec (.fxvcmpb vra) s = .next t ∧ OnlySlicesChange s t ∧
      EachSlice s t fun _ sl tl => (∀ r, tl.reg r = sl.reg r) ∧ tl.acc = sl.acc ∧
        ∀ k < 32, vcrBit tl.vcr .eq k = decide ((sl.b vra (k / 2)).toInt = 0) ∧ vcrBit tl.vcr .gt k = decide ((sl.b vra (k / 2)).toInt > 0) ∧
          vcrBit tl.vcr .lt k = decide ((sl.b vra (k / 2)).toInt < 0)))

/-- The 96 bits of the VCR after fxvcmphm, bit by bit from the left: field C_i at bits 12i to 12i+11, EQ, GT, LT at 0, 4, 8 (notes/assumptions/23.md). -/
def Obligations.CompareWritesFieldLayout : Prop :=
  ∀ (vra : VReg) (s t : State), exec (.fxvcmphm vra) s = .next t →
    EachSlice s t fun _ sl tl => ∀ i < 8, ∀ q < 4,
      tl.vcr.getMsbD (12 * i + q) = decide ((sl.h vra i).toInt = 0) ∧
      tl.vcr.getMsbD (12 * i + 4 + q) = decide ((sl.h vra i).toInt > 0) ∧
      tl.vcr.getMsbD (12 * i + 8 + q) = decide ((sl.h vra i).toInt < 0)

/-- After any compare each nibble has exactly one of its three bits set, and the two bits of a byte element agree (inferences of 10_state.md R37 and R38). -/
def Obligations.CompareSetsExactlyOneBitPerNibble : Prop :=
  ∀ (i : Instr) (s t : State), writesVcr i = true → exec i s = .next t →
    EachSlice s t fun _ _ tl => VcrPaired tl.vcr ∧ VcrExclusive tl.vcr ∧ ∀ k < 32, ∃ a, vcrBit tl.vcr a k = true

/-- R132 and R152. -/
def Obligations.SplatResult : Prop :=
  (∀ (vrt : VReg) (ra : GReg) (s : State), HasOpcode (.fxvsplath vrt ra) 268 .S ∧
    (PcFits s → ∃ t, exec (.fxvsplath vrt ra) s = .next t ∧ OnlySlicesChange s t ∧
      RegHalvesAre s t vrt fun _ _ => BitVec.ofNat 16 (s.gpr[ra]).toNat)) ∧
  (∀ (vrt : VReg) (ra : GReg) (s : State), HasOpcode (.fxvsplatb vrt ra) 269 .S ∧
    (PcFits s → ∃ t, exec (.fxvsplatb vrt ra) s = .next t ∧ OnlySlicesChange s t ∧
      RegBytesAre s t vrt fun _ _ _ => BitVec.ofNat 8 (s.gpr[ra]).toNat))

/-- R201. -/
def Obligations.SelectResult : Prop :=
  ∀ (vrt vra vrb : VReg) (c : Cond) (s : State), HasOpcode (.fxvsel vrt vra vrb c) 319 .V ∧
    (PcFits s → ∃ t, exec (.fxvsel vrt vra vrb c) s = .next t ∧ OnlySlicesChange s t ∧
      RegBytesAre s t vrt fun _ sl j => if condB c sl.vcr j then sl.b vrb j else sl.b vra j)

/-- fxvshh and fxvshb. That the amount is unsigned and that amounts from the element width up give zero is the spec's decision D30 (notes/assumptions/30.md). -/
def Obligations.ShiftResult : Prop :=
  (∀ (vrt vra : VReg) (amount : Nat) (s : State), HasOpcode (.fxvshh vrt vra amount) 316 .V ∧
    (PcFits s → ∃ t, exec (.fxvshh vrt vra amount) s = .next t ∧ OnlySlicesChange s t ∧
      RegHalvesAre s t vrt fun sl i => if amount < 16 then sl.h vra i <<< amount else 0)) ∧
  (∀ (vrt vra : VReg) (amount : Nat) (s : State), HasOpcode (.fxvshb vrt vra amount) 317 .V ∧
    (PcFits s → ∃ t, exec (.fxvshb vrt vra amount) s = .next t ∧ OnlySlicesChange s t ∧
      RegBytesAre s t vrt fun _ sl j => if amount < 8 then sl.b vra j <<< amount else 0))

/-- fxvpckbu under the spec's repair PACK_SPLIT = 8, its decision D12 (notes/assumptions/15.md). -/
def Obligations.PackUpperResult : Prop :=
  ∀ (vrt vra vrb : VReg) (n : Nat) (s : State), HasOpcode (.fxvpckbu vrt vra vrb n) 239 .V ∧
    (PcFits s → ∃ t, exec (.fxvpckbu vrt vra vrb n) s = .next t ∧ OnlySlicesChange s t ∧
      RegBytesAre s t vrt fun _ sl j => if j < 8 then sl.b vra (2 * j) >>> n else sl.b vrb (2 * (j - 8)) >>> n)

/-- fxvpckbl: what it writes under each value of PACK_MASK and PCKBL_SECOND; where one is unsettled, one of the spec's two readings, not known which (decision D12, notes/assumptions/16.md). -/
def Obligations.PackLowerResult : Prop :=
  ∀ (vrt vra vrb : VReg) (n : Nat) (s : State), HasOpcode (.fxvpckbl vrt vra vrb n) 255 .V ∧
    (PcFits s → (s.params.onGap = .freeValue ∨ (s.params.packMask ≠ .unsettled ∧ s.params.pckblSecond ≠ .unsettled)) →
    ∃ t, exec (.fxvpckbl vrt vra vrb n) s = .next t ∧ OnlySlicesChange s t ∧
      ∃ narrow symmetric : Bool,
        (s.params.packMask = .wide → narrow = false) ∧ (s.params.packMask = .narrow → narrow = true) ∧
        (s.params.pckblSecond = .literal → symmetric = false) ∧ (s.params.pckblSecond = .symmetric → symmetric = true) ∧
        RegBytesAre s t vrt fun _ sl j =>
          let low (h : Half) : Byte := BitVec.ofNat 8 (h.toNat / 2 ^ (2 * n)) &&& BitVec.ofNat 8 ((if narrow then 0xff else 0xffff) / 2 ^ n)
          if j < 8 then low (sl.h vra j) else if symmetric then low (sl.h vrb (j - 8)) else sl.b vrb (2 * (j - 8)) >>> n)

/-- fxvupckbl and fxvupckbr complete and write VRT with a value of which nothing is said; apart from pc and the count of completed instructions nothing else changes. That they run with a free value is the model's choice (notes/assumptions/17.md, DESIGN CHOICE). -/
def Obligations.UnpackWritesOnlyTarget : Prop :=
  ∀ (vrt vra vrb : VReg) (n : Nat) (s : State),
    HasOpcode (.fxvupckbl vrt vra vrb n) 287 .V ∧ HasOpcode (.fxvupckbr vrt vra vrb n) 271 .V ∧
    (PcFits s → s.params.onGap = .freeValue →
    (∃ t, exec (.fxvupckbl vrt vra vrb n) s = .next t ∧ OnlySlicesChange s t ∧ EachSlice s t fun _ sl tl => OnlyRegChanges vrt sl tl) ∧
    (∃ t, exec (.fxvupckbr vrt vra vrb n) s = .next t ∧ OnlySlicesChange s t ∧ EachSlice s t fun _ sl tl => OnlyRegChanges vrt sl tl))

/-- The address rule. XLEN = 32 and the wrap of the sum are the spec's decision D14 (notes/assumptions/24.md); that RA means the field is 90_conflicts.md C8 (notes/assumptions/35.md). -/
def Obligations.EffectiveAddressResult : Prop :=
  ∀ (s : State) (ra rb : GReg),
    (ra = 0 → (effectiveAddress s ra rb).toNat = (s.gpr[rb]).toNat) ∧
    (ra ≠ 0 → (effectiveAddress s ra rb).toNat = ((s.gpr[ra]).toNat + (s.gpr[rb]).toNat) % 2 ^ 32)

/-- fxvlax. Byte order, alignment and address map are the spec's decisions D16, D17, D19, D20 (notes/assumptions/9.md, 10.md, 4.md, 26.md). -/
def Obligations.LoadArrayResult : Prop :=
  ∀ (vrt : VReg) (ra rb : GReg) (s : State), HasOpcode (.fxvlax vrt ra rb) 492 .G ∧
    (PcFits s → AccessOk s (effectiveAddress s ra rb).toNat →
    ∃ t, exec (.fxvlax vrt ra rb) s = .next t ∧ OnlySlicesChange s t ∧
      RegBytesAre s t vrt fun k _ j => s.mem.read ((effectiveAddress s ra rb).toNat + 16 * k +
        (match s.params.byteOrder with | .big => j | .little => 4 * (j / 4) + (3 - j % 4))))

/-- fxvstax. Byte order, alignment, address map and program text are the spec's decisions D16, D17, D19, D20, D22 (notes/assumptions/9.md, 10.md, 4.md, 26.md). -/
def Obligations.StoreArrayResult : Prop :=
  ∀ (vrt : VReg) (ra rb : GReg) (s : State), HasOpcode (.fxvstax vrt ra rb) 508 .G ∧
    (PcFits s → s.mem.wf = true → AccessOk s (effectiveAddress s ra rb).toNat →
    ClearOfText s (effectiveAddress s ra rb).toNat →
    ∃ t, exec (.fxvstax vrt ra rb) s = .next t ∧ t.slices = s.slices ∧ t.gpr = s.gpr ∧ t.ioLog = s.ioLog ∧ t.text = s.text ∧
      t.platform = s.platform ∧ t.params = s.params ∧ t.mem.wf = true ∧
      (∀ k sl, s.slices[k]? = some sl → ∀ j < 16, t.mem.read ((effectiveAddress s ra rb).toNat + 16 * k + j) =
        sl.b vrt (match s.params.byteOrder with | .big => j | .little => 4 * (j / 4) + (3 - j % 4))) ∧
      (∀ a, (a < (effectiveAddress s ra rb).toNat ∨ (effectiveAddress s ra rb).toNat + 16 * s.slices.length ≤ a) →
        t.mem.read a = s.mem.read a))

/-- A register stored and loaded back from the same EA is the same in every slice, whatever the byte order (an inference of 20_memory.md R64). -/
def Obligations.StoreThenLoadReturnsRegister : Prop :=
  ∀ (vrt vrt' : VReg) (ra rb ra' rb' : GReg) (s t u : State), s.mem.wf = true →
    effectiveAddress s ra' rb' = effectiveAddress s ra rb →
    exec (.fxvstax vrt ra rb) s = .next t → exec (.fxvlax vrt' ra' rb') t = .next u →
    EachSlice s u fun _ sl ul => ul.reg vrt' = sl.reg vrt

/-- Where fxvlax and fxvstax stop, in the order of checks the spec fixes (its decisions D17, D19, D20, D22, D23; notes/assumptions/26.md, 32.md). -/
def Obligations.LoadStoreStopsInOrder : Prop :=
  ∀ (vrt : VReg) (ra rb : GReg) (s : State) (ea : Nat), ea = (effectiveAddress s ra rb).toNat →
    (2 ^ 32 < ea + 16 * s.slices.length →
      exec (.fxvlax vrt ra rb) s = .refused .addressWrap ∧ exec (.fxvstax vrt ra rb) s = .refused .addressWrap) ∧
    (ea + 16 * s.slices.length ≤ 2 ^ 32 → ¬Aligned s ea →
      exec (.fxvlax vrt ra rb) s = .refused .misalignedVectorAccess ∧ exec (.fxvstax vrt ra rb) s = .refused .misalignedVectorAccess) ∧
    (ea + 16 * s.slices.length ≤ 2 ^ 32 → Aligned s ea → (∃ k < 16 * s.slices.length, ¬Exists s.platform.ram (ea + k)) →
      exec (.fxvlax vrt ra rb) s = .refused .unmapped ∧ exec (.fxvstax vrt ra rb) s = .refused .unmapped) ∧
    (AccessOk s ea → ¬ClearOfText s ea → exec (.fxvstax vrt ra rb) s = .refused .storeToCode)

/-- fxvinx. The answer is the IO oracle's, any value (the spec's decision D29, notes/assumptions/20.md). -/
def Obligations.InputResult : Prop :=
  ∀ (vrt : VReg) (ra rb : GReg) (s : State), HasOpcode (.fxvinx vrt ra rb) 236 .G ∧
    (PcFits s → Exists s.platform.io (effectiveAddress s ra rb).toNat →
    ∃ t parts, exec (.fxvinx vrt ra rb) s = .next t ∧ parts.length = s.slices.length ∧
      t.ioLog = s.ioLog ++ [.read (effectiveAddress s ra rb) parts] ∧
      EachSlice s t (fun k sl tl => parts[k]? = some (tl.reg vrt) ∧ OnlyRegChanges vrt sl tl) ∧
      t.gpr = s.gpr ∧ (∀ a, t.mem.read a = s.mem.read a) ∧ t.text = s.text ∧ t.platform = s.platform ∧ t.params = s.params)

/-- fxvoutx. The write is an event whose effect on later reads is not known (the spec's decision D29, notes/assumptions/20.md). -/
def Obligations.OutputResult : Prop :=
  ∀ (vrt : VReg) (ra rb : GReg) (s : State), HasOpcode (.fxvoutx vrt ra rb) 252 .G ∧
    (PcFits s → Exists s.platform.io (effectiveAddress s ra rb).toNat →
    ∃ t, exec (.fxvoutx vrt ra rb) s = .next t ∧
      t.ioLog = s.ioLog ++ [.write (effectiveAddress s ra rb) (s.slices.map fun sl => sl.reg vrt)] ∧ t.slices = s.slices ∧
      t.gpr = s.gpr ∧ (∀ a, t.mem.read a = s.mem.read a) ∧ t.text = s.text ∧ t.platform = s.platform ∧ t.params = s.params)

/-- fxvinx and fxvoutx at an IO location that does not exist (the spec's decision D19, notes/assumptions/26.md). -/
def Obligations.IoStopsAtMissingLocation : Prop :=
  ∀ (vrt : VReg) (ra rb : GReg) (s : State), ¬Exists s.platform.io (effectiveAddress s ra rb).toNat →
    exec (.fxvinx vrt ra rb) s = .refused .unmapped ∧ exec (.fxvoutx vrt ra rb) s = .refused .unmapped

/-- Every instruction ends with pc <- pc + 4, and where that passes 2^32 an instruction that would complete at another pc is refused as pc_wrap, the last of the checks (the spec's decisions D15 and D23, notes/assumptions/25.md, 32.md); the count of completed instructions is the model's (notes/assumptions/19.md). -/
def Obligations.EveryInstructionAdvancesPc : Prop :=
  (∀ (i : Instr) (s t : State), exec i s = .next t →
      s.pc.toNat + 4 < 2 ^ 32 ∧ t.pc.toNat = s.pc.toNat + 4 ∧ t.retired = s.retired + 1) ∧
  (∀ (i : Instr) (s : State), ¬PcFits s →
      (∀ t, exec i { s with pc := 0 } = .next t → exec i s = .refused .pcWrap) ∧
      (∀ e, exec i { s with pc := 0 } = .fault e → exec i s = .fault e) ∧
      (∀ r, exec i { s with pc := 0 } = .refused r → exec i s = .refused r))

/-- No instruction but fxvstax changes a byte of memory; none but fxvinx and fxvoutx adds to the IO log (an inference of 20_memory.md R60). -/
def Obligations.OnlyStoreTouchesMemoryOnlyIoTouchesLog : Prop :=
  ∀ (i : Instr) (s t : State), exec i s = .next t →
    ((∀ vrt ra rb, i ≠ .fxvstax vrt ra rb) → ∀ a, t.mem.read a = s.mem.read a) ∧
    ((∀ vrt ra rb, i ≠ .fxvinx vrt ra rb ∧ i ≠ .fxvoutx vrt ra rb) → t.ioLog = s.ioLog)

/-- The unit never writes a general-purpose register (an inference of 10_state.md R40), the program text, the platform or the parameters, and keeps the number of slices. -/
def Obligations.NoInstructionWritesGprTextOrConfiguration : Prop :=
  ∀ (i : Instr) (s t : State), exec i s = .next t →
    t.gpr = s.gpr ∧ t.text = s.text ∧ t.platform = s.platform ∧ t.params = s.params ∧ t.slices.length = s.slices.length

/-- Which instructions write the VCR and which the accumulator (inferences of 10_state.md R35 and R37). -/
def Obligations.OnlyComparesWriteVcrOnlyTacWritesAcc : Prop :=
  ∀ (i : Instr) (s t : State), exec i s = .next t →
    EachSlice s t fun _ sl tl => (writesVcr i = false → tl.vcr = sl.vcr) ∧ (writesAcc i = false → tl.acc = sl.acc)

/-- Nothing moves between slices except through memory or IO (the spec's decision D5, notes/assumptions/33.md). -/
def Obligations.SlicesDoNotInfluenceEachOther : Prop :=
  ∀ (i : Instr) (s s' t t' : State) (k : Nat) (sl : Slice),
    (∀ vrt ra rb, i ≠ .fxvlax vrt ra rb ∧ i ≠ .fxvinx vrt ra rb) →
    s.gpr = s'.gpr → s.params = s'.params → s.retired = s'.retired →
    s.slices[k]? = some sl → s'.slices[k]? = some sl → exec i s = .next t → exec i s' = .next t' →
    t.slices[k]? = t'.slices[k]?

/-- Memory stays in canonical form, pc a multiple of 4, there is a slice, and every VCR stays one that compares leave, or zero. -/
def Obligations.EveryStepKeepsInvariant : Prop :=
  ∀ s t : State, Inv s → step s = .next t → Inv t

/-- The reset state satisfies the invariant (its register values are the model's choice, notes/assumptions/1.md, 2.md, 3.md, DESIGN CHOICE). -/
def Obligations.ResetSatisfiesInvariant : Prop :=
  Inv State.reset

/-- With gaps run as free values no step ends in a fault (the model's choice, notes/assumptions/18.md; the architecture itself has no fault). -/
def Obligations.NoFaultWhenGapsRunFree : Prop :=
  ∀ s : State, s.params.onGap = .freeValue → SafeStep s

/-- When a halfword-conditional instruction faults on the VCR, and that nothing else does: exactly with gaps as stops, VCR_HW_READ unspecified and a mixed field in the selected area (the spec's decision D11, notes/assumptions/14.md, 18.md); one with C = 0 or with equal bits never does (10_state.md R38). -/
def Obligations.MixedConditionFaultsUnderStop : Prop :=
  (∀ (i : Instr) (c : Cond) (s : State), halfCondition? i = some c →
      (exec i s = .fault .vcrMixed ↔ s.params.onGap = .stop ∧ s.params.vcrHwRead = .unspecified ∧
        ∃ a, condArea c = some a ∧ ∃ sl ∈ s.slices, ∃ e < 8, ∃ q < 4, ∃ q' < 4,
          vcrBit sl.vcr a (4 * e + q) ≠ vcrBit sl.vcr a (4 * e + q'))) ∧
  (∀ (i : Instr) (s : State), halfCondition? i = some .always → PcFits s → ∃ t, exec i s = .next t) ∧
  (∀ (i : Instr) (s : State) (e : Fault), exec i s = .fault e → ∃ c, halfCondition? i = some c)

/-- With gaps as stops, fxvpckbl with an unsettled parameter and the two unpacks are refused as the spec refuses them (its decisions D12 and D31, notes/assumptions/16.md, 17.md, 18.md). -/
def Obligations.PackLowerAndUnpackRefusedUnderStop : Prop :=
  ∀ (vrt vra vrb : VReg) (n : Nat) (s : State), s.params.onGap = .stop →
    ((s.params.packMask = .unsettled ∨ s.params.pckblSecond = .unsettled) → exec (.fxvpckbl vrt vra vrb n) s = .refused .packNotSettled) ∧
    exec (.fxvupckbl vrt vra vrb n) s = .refused .unpackNotDefined ∧ exec (.fxvupckbr vrt vra vrb n) s = .refused .unpackNotDefined
end

