-- ==== Sys2Proof/Laws/Decode.lean ====
section
/-! SUPPORT. Reading the fields of a word back from the layout, the bytes of a word, and when a word is the encoding of what it decodes to. -/

namespace Sys2Proof

/-- The number a word of the layout stands for, when its fields fit (30_encoding.md R91). -/
theorem toNat_wordOf {vrt vra vrb xo c : Nat} (h1 : vrt < 32) (h2 : vra < 32) (h3 : vrb < 32) (h4 : xo < 512) (h5 : c < 4) :
    (wordOf vrt vra vrb xo c).toNat = 4 * 2 ^ 26 + vrt * 2 ^ 21 + vra * 2 ^ 16 + vrb * 2 ^ 11 + xo * 2 ^ 2 + c := by
  rw [wordOf, BitVec.toNat_ofNat]
  omega

/-- Every field is read back from where it was written (30_encoding.md R91). -/
theorem wordFields_wordOf {vrt vra vrb xo c : Nat} (h1 : vrt < 32) (h2 : vra < 32) (h3 : vrb < 32) (h4 : xo < 512) (h5 : c < 4) :
    wordFields (wordOf vrt vra vrb xo c) = ⟨4, ⟨vrt, h1⟩, ⟨vra, h2⟩, ⟨vrb, h3⟩, xo, c⟩ := by
  unfold wordFields
  rw [toNat_wordOf h1 h2 h3 h4 h5]
  simp only [Fields.mk.injEq, Fin.ext_iff, Fin.val_ofNat]
  omega

theorem condOfField_condField (c : Cond) : condOfField (condField c) = c := by
  cases c <;> rfl

theorem condField_lt (c : Cond) : condField c < 4 := by
  cases c <;> decide

/-- The numbers of a well-formed instruction fit their fields, and every XO fits nine bits. -/
theorem Instr.fields_fit {i : Instr} (h : i.wellFormed = true) : i.fieldNumbers.1 < 32 ∧ i.fieldNumbers.2.1 < 32 ∧
    i.fieldNumbers.2.2.1 < 32 ∧ i.xo < 512 ∧ i.fieldNumbers.2.2.2 < 4 := by
  cases i <;> simp only [Instr.wellFormed, decide_eq_true_eq] at h <;>
    simp only [Instr.fieldNumbers, Instr.xo, Fin.is_lt, condField_lt, h, Nat.reduceLT, and_self]

/-- The fields of a well-formed instruction's word. -/
theorem wordFields_encode {i : Instr} (h : i.wellFormed = true) : wordFields (encode i) =
    ⟨4, ⟨_, (Instr.fields_fit h).1⟩, ⟨_, (Instr.fields_fit h).2.1⟩, ⟨_, (Instr.fields_fit h).2.2.1⟩, i.xo, i.fieldNumbers.2.2.2⟩ :=
  wordFields_wordOf _ _ _ (Instr.fields_fit h).2.2.2.1 (Instr.fields_fit h).2.2.2.2

/-- The word put together from the four bytes of a word is the word. -/
theorem wordOfBytes_bytesOfWord (w : Word) :
    wordOfBytes (w.extractLsb' 24 8) (w.extractLsb' 16 8) (w.extractLsb' 8 8) (w.extractLsb' 0 8) = w := by
  apply BitVec.eq_of_getLsbD_eq
  intro p hp
  simp only [wordOfBytes, BitVec.getLsbD_append, BitVec.getLsbD_extractLsb']
  by_cases h0 : p < 8
  · rw [if_pos (by omega), if_pos h0]; simp [h0]
  · by_cases h1 : p < 16
    · rw [if_pos h1, if_neg h0]; simp [show p - 8 < 8 by omega, show 8 + (p - 8) = p by omega]
    · by_cases h2 : p < 24
      · rw [if_neg h1, if_pos (by omega)]; simp [show p - 16 < 8 by omega, show 16 + (p - 16) = p by omega]
      · rw [if_neg h1, if_neg (by omega)]; simp [show p - 16 - 8 < 8 by omega, show 24 + (p - 16 - 8) = p by omega]

/-- The decoder on the bytes of a word, whatever follows them. -/
theorem decode_bytesOfWord (w : Word) (rest : List Byte) :
    decode (bytesOfWord w ++ rest) = (decodeWord w).map fun i => (i, rest) := by
  simp only [bytesOfWord, List.cons_append, List.nil_append, decode, wordOfBytes_bytesOfWord]
  cases decodeWord w <;> rfl

/-- The instruction a word decodes to is that of the row of its XO, built from its fields. -/
theorem decodeWord_ok {w : Word} {i : Instr} (h : decodeWord w = .ok i) :
    (wordFields w).opcd = 4 ∧ ∃ r ∈ opTable, r.xo = (wordFields w).xo ∧ i = r.build (wordFields w) := by
  unfold decodeWord at h
  split at h
  · next h4 =>
    split at h
    · next r hr =>
      cases h
      exact ⟨h4, r, List.mem_of_find?_eq_some hr, by simpa using List.find?_some hr, rfl⟩
    · cases h
  · cases h

theorem condField_condOfField {c : Nat} (h : c < 4) : condField (condOfField c) = c := by
  obtain rfl | rfl | rfl | rfl : c = 0 ∨ c = 1 ∨ c = 2 ∨ c = 3 := by omega
  all_goals rfl

/-- A row's instruction has the row's XO, and the numbers of its fields are those it was built from, 0 where it does not use the field (30_encoding.md R98). -/
theorem fieldNumbers_build {r : OpRow} {f : Fields} (h : r ∈ opTable) (hc : f.c < 4) : (r.build f).xo = r.xo ∧
    (r.build f).fieldNumbers = (if Machine.usesVrt (r.build f) then f.vrt.val else 0, f.vra.val,
      if Machine.usesVrb (r.build f) then f.vrb.val else 0, if Machine.usesC (r.build f) then f.c else 0) := by
  revert r
  simp only [opTable, List.cons_append, List.nil_append, List.forall_mem_cons]
  simp [Instr.xo, Instr.fieldNumbers, Machine.usesVrt, Machine.usesVrb, Machine.usesC, Machine.writesAcc, Machine.writesVcr,
    Fields.cond, condField_condOfField hc]

/-- A word that decodes is another word than the encoding of its instruction exactly when a field that the instruction does not use is not 0 (30_encoding.md R98). -/
theorem encode_ne_iff {w : Word} {i : Instr} (h : decodeWord w = .ok i) : encode i ≠ w ↔ Machine.UnusedNonzero i w := by
  obtain ⟨h4, r, hr, hx, rfl⟩ := decodeWord_ok h
  obtain ⟨e, n⟩ := fieldNumbers_build (f := wordFields w) hr (Nat.mod_lt _ (by decide))
  have hw := w.isLt
  have ht : w.toNat / 2 ^ 26 % 64 = 4 := h4
  unfold encode Machine.UnusedNonzero
  rw [n, e, hx]
  generalize Machine.usesVrt _ = a
  generalize Machine.usesVrb _ = b
  generalize Machine.usesC _ = c
  simp only [wordFields, Fin.val_ofNat, ne_eq, ← BitVec.toNat_inj, BitVec.extractLsb'_toNat, Nat.shiftRight_eq_div_pow, wordOf, BitVec.toNat_ofNat]
  cases a <;> cases b <;> cases c <;> simp <;> omega

end Sys2Proof
end

