-- ==== Sys2Proof/Laws/Lanes.lean ====
section
/-! SUPPORT. The parts of a register: reading back what `ofLanes` put together, the two views of one register, and equality by parts. -/

namespace Sys2Proof.Machine

/-- Bit `q` of part `i` is bit `w * (n - 1 - i) + q` of a register of n parts. -/
theorem getLsbD_lane {w n : Nat} (v : BitVec (w * n)) {i q : Nat} (hi : i < n) (hq : q < w) :
    (lane w v i).getLsbD q = v.getLsbD (w * (n - 1 - i) + q) := by
  have h : w * n - w * (i + 1) = w * (n - 1 - i) := by
    rw [← Nat.mul_sub]; congr 1; omega
  simp [lane, hq, h]

/-- Bit `p` of the register made of `f 0`, `f 1`, … is a bit of the part it falls in. -/
theorem getLsbD_ofLanes {w : Nat} (f : Nat → BitVec w) : ∀ {n p : Nat}, p < w * n →
    (ofLanes w n f).getLsbD p = (f (n - 1 - p / w)).getLsbD (p % w) := by
  intro n
  induction n with
  | zero => intro p hp; simp at hp
  | succ n ih =>
    intro p hp
    have hw : 0 < w := by
      rcases Nat.eq_zero_or_pos w with h | h
      · simp [h] at hp
      · exact h
    show ((ofLanes w n f ++ f n : BitVec (w * n + w))).getLsbD p = _
    rw [BitVec.getLsbD_append]
    by_cases h : p < w
    · simp [h, Nat.div_eq_of_lt h, Nat.mod_eq_of_lt h]
    · have hle : w ≤ p := Nat.le_of_not_lt h
      have hdiv : p / w = (p - w) / w + 1 := by
        conv_lhs => rw [← Nat.sub_add_cancel hle]
        exact Nat.add_div_right _ hw
      have hmod : p % w = (p - w) % w := by
        conv_lhs => rw [← Nat.sub_add_cancel hle]
        exact Nat.add_mod_right _ _
      have hlt : p - w < w * n := by
        have : w * (n + 1) = w * n + w := Nat.mul_succ w n
        omega
      simp only [h, if_false]
      rw [ih hlt, hdiv, hmod]
      congr 2
      omega

/-- Part `i` of the register made of `f 0`, `f 1`, … is `f i`. -/
theorem lane_ofLanes {w n : Nat} (f : Nat → BitVec w) {i : Nat} (hi : i < n) : lane w (ofLanes w n f) i = f i := by
  apply BitVec.eq_of_getLsbD_eq
  intro q hq
  have hw : 0 < w := by omega
  have hp : w * (n - 1 - i) + q < w * n := by
    have h : w * (n - 1 - i + 1) ≤ w * n := Nat.mul_le_mul_left w (by omega)
    rw [Nat.mul_succ] at h
    omega
  rw [getLsbD_lane _ hi hq, getLsbD_ofLanes f hp]
  rw [Nat.mul_add_div hw, Nat.div_eq_of_lt hq, Nat.mul_add_mod, Nat.mod_eq_of_lt hq]
  congr 2
  omega

/-- Two registers with equal parts are equal. -/
theorem eq_of_lanes {w n : Nat} {u v : BitVec (w * n)} (h : ∀ i < n, lane w u i = lane w v i) : u = v := by
  apply BitVec.eq_of_getLsbD_eq
  intro p hp
  have hw : 0 < w := by
    rcases Nat.eq_zero_or_pos w with hz | hz
    · simp [hz] at hp
    · exact hz
  have hd : p / w < n := Nat.div_lt_of_lt_mul hp
  have hm : p % w < w := Nat.mod_lt _ hw
  have hs : ∀ d, d < n → n - 1 - d < n ∧ n - 1 - (n - 1 - d) = d := by omega
  obtain ⟨hk, hi⟩ := hs _ hd
  have e := congrArg (fun x => x.getLsbD (p % w)) (h (n - 1 - p / w) hk)
  simp only [getLsbD_lane _ hk hm] at e
  rwa [hi, Nat.div_add_mod] at e

theorem halfOf_ofHalves (f : Nat → Half) {i : Nat} (hi : i < 8) : halfOf (ofHalves f) i = f i := lane_ofLanes (n := 8) f hi

theorem byteOf_ofBytes (f : Nat → Byte) {j : Nat} (hj : j < 16) : byteOf (ofBytes f) j = f j := lane_ofLanes (n := 16) f hj

theorem accWordOf_ofAccWords (f : Nat → Word) {i : Nat} (hi : i < 8) : accWordOf (ofAccWords f) i = f i := lane_ofLanes (n := 8) f hi

theorem accHalfOf_ofAccHalves (f : Nat → Half) {j : Nat} (hj : j < 16) : accHalfOf (ofAccHalves f) j = f j := lane_ofLanes (n := 16) f hj

/-- A part of `w + w` bit is its two parts of `w` bit, the left one more significant (00_scope.md R8). -/
theorem lane_append {w n : Nat} (v : BitVec (w * (2 * n))) (u : BitVec ((w + w) * n)) (huv : ∀ p, u.getLsbD p = v.getLsbD p)
    {i : Nat} (hi : i < n) : lane (w + w) u i = lane w v (2 * i) ++ lane w v (2 * i + 1) := by
  apply BitVec.eq_of_getLsbD_eq
  intro q hq
  rw [getLsbD_lane u hi hq, huv, BitVec.getLsbD_append]
  by_cases h : q < w
  · rw [if_pos h, getLsbD_lane v (by omega) h]
    congr 1
    have h2 : 2 * n - 1 - (2 * i + 1) = 2 * (n - 1 - i) := by omega
    rw [h2, ← Nat.two_mul, Nat.mul_assoc, Nat.mul_left_comm]
  · rw [if_neg h, getLsbD_lane v (by omega) (by omega)]
    congr 1
    have h2 : 2 * n - 1 - 2 * i = 2 * (n - 1 - i) + 1 := by omega
    rw [h2, ← Nat.two_mul, Nat.mul_assoc, Nat.mul_add, Nat.mul_left_comm w 2]
    omega

end Sys2Proof.Machine
end

