-- ==== Sys2Proof/Laws/Flags.lean ====
section
/-! SUPPORT. The condition register: reading back what a compare writes, what the two conditions read, and when it stops an instruction. -/

namespace Sys2Proof.Machine

theorem areaAt_vcrPos (a : Area) (k : Nat) : areaAt (vcrPos a k) = a := by
  have h : vcrPos a k % 12 / 4 = areaIndex a := by
    cases a <;> simp only [vcrPos, areaIndex] <;> omega
  unfold areaAt
  rw [h]
  cases a <;> rfl

theorem nibbleAt_vcrPos (a : Area) (k : Nat) : nibbleAt (vcrPos a k) = k := by
  cases a <;> simp only [nibbleAt, vcrPos, areaIndex] <;> omega

theorem vcrPos_lt (a : Area) {k : Nat} (hk : k < 32) : vcrPos a k < 96 := by
  cases a <;> simp only [vcrPos, areaIndex] <;> omega

/-- Bit `p` from the left of a register is its part of width 1 number `p`. -/
theorem getMsbD_eq_lane (v : VcrBits) {p : Nat} (hp : p < 96) : v.getMsbD p = (lane 1 v p).getLsbD 0 := by
  rw [getLsbD_lane (w := 1) (n := 96) v hp (by omega), BitVec.getMsbD]
  simp only [hp, decide_true, Bool.true_and]
  congr 1
  omega

/-- The bits of a VCR made by `ofVcrBits`. -/
theorem vcrBit_ofVcrBits (f : Area → Nat → Bool) (a : Area) {k : Nat} (hk : k < 32) : vcrBit (ofVcrBits f) a k = f a k := by
  unfold vcrBit
  rw [getMsbD_eq_lane _ (vcrPos_lt a hk)]
  unfold ofVcrBits
  rw [lane_ofLanes (n := 96) _ (vcrPos_lt a hk), areaAt_vcrPos, nibbleAt_vcrPos]
  cases f a k <;> rfl

@[simp] theorem condB_always (v : VcrBits) (j : Nat) : condB .always v j = true := rfl

@[simp] theorem condH_always (p : Config.Params) (r k : Nat) (v : VcrBits) (i : Nat) : condH p r k .always v i = true := rfl

@[simp] theorem fieldMixed_always (v : VcrBits) (i : Nat) : fieldMixed .always v i = false := rfl

theorem anyMixed_always (slices : List Slice) : anyMixed .always slices = false := by
  simp [anyMixed]

/-- An instruction with C = 0 never stops on the VCR. -/
@[simp] theorem condHStops_always (s : State) : condHStops s .always = false := by
  simp [condHStops, anyMixed_always]

/-- With `onGap = freeValue` no halfword-conditional instruction stops on the VCR. -/
theorem condHStops_freeValue {s : State} (h : s.params.onGap = .freeValue) (c : Cond) : condHStops s c = false := by
  simp [condHStops, h]

/-- A halfword element whose selected field is mixed has two of its four bits different, and the reverse. -/
theorem fieldMixed_iff {c : Cond} {v : VcrBits} {e : Nat} :
    fieldMixed c v e = true ↔ ∃ a, condArea c = some a ∧ BitsDiffer v a e := by
  unfold fieldMixed
  cases condArea c with
  | none => simp
  | some a =>
    simp only [fieldAny, fieldAll, BitsDiffer, Option.some.injEq, exists_eq_left']
    constructor
    · intro h
      by_contra hn
      push Not at hn
      have h1 := hn 1 (by omega) 0 (by omega)
      have h2 := hn 2 (by omega) 0 (by omega)
      have h3 := hn 3 (by omega) 0 (by omega)
      simp only [Nat.add_zero] at h1 h2 h3
      rw [h1, h2, h3] at h
      cases h0 : vcrBit v a (4 * e) <;> simp [h0] at h
    · rintro ⟨q, hq, q', hq', hne⟩
      by_contra hn
      have hall : ∀ p < 4, vcrBit v a (4 * e + p) = vcrBit v a (4 * e) := by
        intro p hp
        obtain rfl | rfl | rfl | rfl : p = 0 ∨ p = 1 ∨ p = 2 ∨ p = 3 := by omega
        all_goals
          cases h0 : vcrBit v a (4 * e) <;> cases h1 : vcrBit v a (4 * e + 1) <;>
          cases h2 : vcrBit v a (4 * e + 2) <;> cases h3 : vcrBit v a (4 * e + 3) <;> simp_all
      exact hne ((hall q hq).trans (hall q' hq').symm)

/-- Some slice would be read mixed, as a Bool and as a Prop. -/
theorem anyMixed_iff {s : State} {c : Cond} : anyMixed c s.slices = true ↔ ReadsMixed s c := by
  simp only [anyMixed, List.any_eq_true, List.mem_range, fieldMixed_iff, ReadsMixed]
  constructor
  · rintro ⟨sl, hs, e, he, a, ha, h⟩
    exact ⟨a, ha, sl, hs, e, he, h⟩
  · rintro ⟨a, ha, sl, hs, e, he, h⟩
    exact ⟨sl, hs, e, he, a, ha, h⟩

/-- When the VCR does not stop a halfword-conditional instruction (10_state.md R38). -/
theorem condHStops_eq_false_iff {s : State} {c : Cond} : condHStops s c = false ↔ HalfConditionReadable s c := by
  unfold condHStops HalfConditionReadable
  rw [← anyMixed_iff]
  cases s.params.onGap <;> cases s.params.vcrHwRead <;> simp

/-- Where the four bits agree, the halfword condition is their common value, whatever the parameters (10_state.md R38). -/
theorem condH_of_common (p : Config.Params) (r k : Nat) {c : Cond} {a : Area} (hc : condArea c = some a) {v : VcrBits} {i : Nat} {x : Bool}
    (h : ∀ q < 4, vcrBit v a (4 * i + q) = x) : condH p r k c v i = x := by
  have h0 : vcrBit v a (4 * i) = x := by simpa using h 0 (by omega)
  have h1 := h 1 (by omega)
  have h2 := h 2 (by omega)
  have h3 := h 3 (by omega)
  cases x <;> simp [condH, hc, fieldMixed, fieldAll, fieldAny, h0, h1, h2, h3]

/-- Exactly one comparison with zero holds. -/
theorem compareZero_unique {a a' : Area} {z : Int} (h : compareZero a z = true) (h' : compareZero a' z = true) : a = a' := by
  cases a <;> cases a' <;> simp only [compareZero, decide_eq_true_eq] at h h' <;> first | rfl | omega

end Sys2Proof.Machine
end

