-- ==== Sys2Proof/Laws/Memory.lean ====
section
/-! SUPPORT. Main memory: every operation keeps the canonical form, equal contents are equal data, a read after a write, and what a store of whole registers writes. -/

namespace Sys2Proof.Machine

theorem Memory.wfFrom_cons {lo k : Nat} {b : Byte} {m : Memory} :
    Memory.wfFrom lo ((k, b) :: m) = true ↔ lo ≤ k ∧ k < addressLimit ∧ b ≠ unlistedByte ∧ Memory.wfFrom (k + 1) m = true := by
  simp [Memory.wfFrom, and_assoc]

theorem Memory.wfFrom_mono {lo lo' : Nat} (h : lo' ≤ lo) : ∀ {m : Memory}, Memory.wfFrom lo m = true → Memory.wfFrom lo' m = true
  | [], _ => rfl
  | (k, b) :: m, hm => by
    rw [Memory.wfFrom_cons] at hm ⊢
    exact ⟨Nat.le_trans h hm.1, hm.2⟩

theorem Memory.wfFrom_write {a : Nat} (ha : a < addressLimit) (b : Byte) : ∀ {lo : Nat} {m : Memory}, lo ≤ a →
    Memory.wfFrom lo m = true → Memory.wfFrom lo (m.write a b) = true
  | lo, [], hlo, _ => by
    unfold Memory.write
    split
    · rfl
    · rw [Memory.wfFrom_cons]; exact ⟨hlo, ha, ‹_›, rfl⟩
  | lo, (k, x) :: m, hlo, hm => by
    have hm' := Memory.wfFrom_cons.1 hm
    unfold Memory.write
    split
    · split
      · exact hm
      · rw [Memory.wfFrom_cons, Memory.wfFrom_cons]
        exact ⟨hlo, ha, ‹_›, by omega, hm'.2⟩
    · split
      · subst_vars
        split
        · exact Memory.wfFrom_mono (by omega) hm'.2.2.2
        · rw [Memory.wfFrom_cons]; exact ⟨hlo, ha, ‹_›, hm'.2.2.2⟩
      · rw [Memory.wfFrom_cons]
        exact ⟨hm'.1, hm'.2.1, hm'.2.2.1, Memory.wfFrom_write ha b (by omega) hm'.2.2.2⟩

/-- A byte write inside the address space keeps the canonical form. -/
theorem Memory.wf_write {m : Memory} {a : Nat} (ha : a < addressLimit) (b : Byte) (hm : m.wf = true) : (m.write a b).wf = true :=
  Memory.wfFrom_write ha b (Nat.zero_le a) hm

/-- An address below every listed one is unlisted. -/
theorem Memory.read_below : ∀ {lo a : Nat} {m : Memory}, Memory.wfFrom lo m = true → a < lo → m.read a = unlistedByte
  | _, _, [], _, _ => rfl
  | lo, a, (k, b) :: m, hm, ha => by
    have hm' := Memory.wfFrom_cons.1 hm
    unfold Memory.read
    rw [if_neg (by omega)]
    exact Memory.read_below hm'.2.2.2 (by omega)

theorem Memory.read_write_selfFrom (a : Nat) (b : Byte) : ∀ {lo : Nat} {m : Memory}, Memory.wfFrom lo m = true → (m.write a b).read a = b
  | lo, [], _ => by
    unfold Memory.write
    split
    · subst_vars; rfl
    · simp [Memory.read]
  | lo, (k, x) :: m, hm => by
    have hm' := Memory.wfFrom_cons.1 hm
    unfold Memory.write
    split
    · split
      · subst_vars
        unfold Memory.read
        rw [if_neg (by omega)]
        exact Memory.read_below hm'.2.2.2 (by omega)
      · simp [Memory.read]
    · split
      · subst_vars
        split
        · subst_vars; exact Memory.read_below hm'.2.2.2 (by omega)
        · simp [Memory.read]
      · unfold Memory.read
        rw [if_neg (by omega)]
        exact Memory.read_write_selfFrom a b hm'.2.2.2

/-- A read after a write to the same address gives the value written. -/
theorem Memory.read_write_self {m : Memory} (hm : m.wf = true) (a : Nat) (b : Byte) : (m.write a b).read a = b :=
  Memory.read_write_selfFrom a b hm

/-- A write leaves every other address alone. -/
theorem Memory.read_write_ne {a c : Nat} (h : c ≠ a) (b : Byte) : ∀ (m : Memory), (m.write a b).read c = m.read c
  | [] => by
    unfold Memory.write
    split
    · rfl
    · simp [Memory.read, Ne.symm h]
  | (k, x) :: m => by
    unfold Memory.write
    split
    · split
      · rfl
      · rw [Memory.read, if_neg (Ne.symm h)]
    · split
      · subst_vars
        have hk : (k, x).1 ≠ c := Ne.symm h
        split
        · rw [Memory.read, if_neg (Ne.symm h)]
        · rw [Memory.read, if_neg (Ne.symm h), Memory.read, if_neg (Ne.symm h)]
      · unfold Memory.read
        rw [Memory.read_write_ne h b m]

theorem Memory.ext_wfFrom : ∀ {lo : Nat} {m m' : Memory}, Memory.wfFrom lo m = true → Memory.wfFrom lo m' = true →
    (∀ a, m.read a = m'.read a) → m = m'
  | _, [], [], _, _, _ => rfl
  | lo, [], (k, b) :: m', _, h', e => by
    have h := (Memory.wfFrom_cons.1 h').2.2.1
    exact absurd ((e k).symm.trans rfl) (by simpa [Memory.read] using h)
  | lo, (k, b) :: m, [], h, _, e => by
    have h' := (Memory.wfFrom_cons.1 h).2.2.1
    exact absurd ((e k).trans rfl) (by simpa [Memory.read] using h')
  | lo, (k, b) :: m, (k', b') :: m', h, h', e => by
    have hm := Memory.wfFrom_cons.1 h
    have hm' := Memory.wfFrom_cons.1 h'
    have hk : k = k' := by
      rcases Nat.lt_trichotomy k k' with hlt | heq | hgt
      · have h1 := e k
        rw [Memory.read, if_pos rfl, Memory.read, if_neg (by omega), Memory.read_below hm'.2.2.2 (by omega)] at h1
        exact absurd h1 hm.2.2.1
      · exact heq
      · have h1 := e k'
        rw [Memory.read, if_neg (by omega), Memory.read, if_pos rfl, Memory.read_below hm.2.2.2 (by omega)] at h1
        exact absurd h1.symm hm'.2.2.1
    subst hk
    have hb : b = b' := by simpa [Memory.read] using e k
    subst hb
    congr 1
    refine Memory.ext_wfFrom hm.2.2.2 hm'.2.2.2 fun a => ?_
    by_cases ha : k = a
    · subst ha; rw [Memory.read_below hm.2.2.2 (by omega), Memory.read_below hm'.2.2.2 (by omega)]
    · have h1 := e a
      rwa [Memory.read, if_neg ha, Memory.read, if_neg ha] at h1

/-- Two memories in canonical form with the same contents are the same data. -/
theorem Memory.ext_wf {m m' : Memory} (h : m.wf = true) (h' : m'.wf = true) (e : ∀ a, m.read a = m'.read a) : m = m' :=
  Memory.ext_wfFrom h h' e

theorem byteIndex_lt {o : Config.ByteOrder} {q : Nat} (h : q < 4) : byteIndex o q < 4 := by
  cases o <;> simp only [byteIndex] <;> omega

theorem byteIndex_byteIndex (o : Config.ByteOrder) {q : Nat} (h : q < 4) : byteIndex o (byteIndex o q) = q := by
  cases o
  · rfl
  · simp only [byteIndex]; omega

/-- Byte q of word j of a vector register is its byte element `4 j + q`. -/
theorem lane_lane (v : VecBits) {j q : Nat} (hj : j < 4) (hq : q < 4) : lane 8 (lane 32 v j) q = byteOf v (4 * j + q) := by
  apply BitVec.eq_of_getLsbD_eq
  intro p hp
  have e : 128 - 32 * (j + 1) + (32 - 8 * (q + 1) + p) = 128 - 8 * (4 * j + q + 1) + p := by omega
  have hlt : 32 - 8 * (q + 1) + p < 32 := by omega
  simp only [byteOf, lane, BitVec.getLsbD_extractLsb', hp, hlt, e, decide_true, Bool.true_and]

section
variable {m : Memory} {o : Config.ByteOrder} {a c : Nat}

theorem Memory.wf_writeWord (ha : a + 4 ≤ addressLimit) (v : Word) (hm : m.wf = true) : (m.writeWord o a v).wf = true := by
  unfold Memory.writeWord
  exact Memory.wf_write (by omega) _ (Memory.wf_write (by omega) _ (Memory.wf_write (by omega) _ (Memory.wf_write (by omega) _ hm)))

/-- A word write leaves every byte outside its four alone. -/
theorem Memory.read_writeWord_outside (h : c < a ∨ a + 4 ≤ c) (v : Word) : (m.writeWord o a v).read c = m.read c := by
  unfold Memory.writeWord
  rw [Memory.read_write_ne (by omega), Memory.read_write_ne (by omega), Memory.read_write_ne (by omega), Memory.read_write_ne (by omega)]

/-- The bytes a word write stores. -/
theorem Memory.read_writeWord (ha : a + 4 ≤ addressLimit) (hm : m.wf = true) (v : Word) {q : Nat} (hq : q < 4) :
    (m.writeWord o a v).read (a + q) = lane 8 v (byteIndex o q) := by
  have h0 := Memory.wf_write (a := a) (by omega) (lane 8 v (byteIndex o 0)) hm
  have h1 := Memory.wf_write (a := a + 1) (by omega) (lane 8 v (byteIndex o 1)) h0
  have h2 := Memory.wf_write (a := a + 2) (by omega) (lane 8 v (byteIndex o 2)) h1
  unfold Memory.writeWord
  obtain rfl | rfl | rfl | rfl : q = 0 ∨ q = 1 ∨ q = 2 ∨ q = 3 := by omega
  · rw [Memory.read_write_ne (by omega), Memory.read_write_ne (by omega), Memory.read_write_ne (by omega)]
    exact Memory.read_write_self hm _ _
  · rw [Memory.read_write_ne (by omega), Memory.read_write_ne (by omega)]
    exact Memory.read_write_self h0 _ _
  · rw [Memory.read_write_ne (by omega)]
    exact Memory.read_write_self h1 _ _
  · exact Memory.read_write_self h2 _ _

theorem Memory.wf_writeVec (ha : a + 16 ≤ addressLimit) (v : VecBits) (hm : m.wf = true) : (m.writeVec o a v).wf = true := by
  unfold Memory.writeVec
  exact Memory.wf_writeWord (by omega) _ (Memory.wf_writeWord (by omega) _ (Memory.wf_writeWord (by omega) _ (Memory.wf_writeWord (by omega) _ hm)))

/-- A register write leaves every byte outside its sixteen alone. -/
theorem Memory.read_writeVec_outside (h : c < a ∨ a + 16 ≤ c) (v : VecBits) : (m.writeVec o a v).read c = m.read c := by
  unfold Memory.writeVec
  rw [Memory.read_writeWord_outside (by omega), Memory.read_writeWord_outside (by omega), Memory.read_writeWord_outside (by omega),
    Memory.read_writeWord_outside (by omega)]

/-- The bytes a register write stores: byte element k at `a + k`, each word's four bytes in the byte order of memory (20_memory.md R62). -/
theorem Memory.read_writeVec (ha : a + 16 ≤ addressLimit) (hm : m.wf = true) (v : VecBits) {k : Nat} (hk : k < 16) :
    (m.writeVec o a v).read (a + k) = byteOf v (4 * (k / 4) + byteIndex o (k % 4)) := by
  have h0 := Memory.wf_writeWord (o := o) (a := a) (by omega) (lane 32 v 0) hm
  have h1 := Memory.wf_writeWord (o := o) (a := a + 4) (by omega) (lane 32 v 1) h0
  have h2 := Memory.wf_writeWord (o := o) (a := a + 8) (by omega) (lane 32 v 2) h1
  have hq : k % 4 < 4 := Nat.mod_lt _ (by omega)
  rw [← lane_lane v (by omega) (byteIndex_lt hq)]
  unfold Memory.writeVec
  obtain hj | hj | hj | hj : k / 4 = 0 ∨ k / 4 = 1 ∨ k / 4 = 2 ∨ k / 4 = 3 := by omega
  · have e : a + k = a + k % 4 := by omega
    rw [Memory.read_writeWord_outside (by omega), Memory.read_writeWord_outside (by omega), Memory.read_writeWord_outside (by omega), hj, e,
      Memory.read_writeWord (by omega) hm _ hq]
  · have e : a + k = a + 4 + k % 4 := by omega
    rw [Memory.read_writeWord_outside (by omega), Memory.read_writeWord_outside (by omega), hj, e, Memory.read_writeWord (by omega) h0 _ hq]
  · have e : a + k = a + 8 + k % 4 := by omega
    rw [Memory.read_writeWord_outside (by omega), hj, e, Memory.read_writeWord (by omega) h1 _ hq]
  · have e : a + k = a + 12 + k % 4 := by omega
    rw [hj, e, Memory.read_writeWord (by omega) h2 _ hq]

end

/-- A store of whole registers keeps the canonical form. -/
theorem Memory.wf_writeVecs (o : Config.ByteOrder) (vs : List VecBits) {a : Nat} {m : Memory} (ha : a + 16 * vs.length ≤ addressLimit)
    (hm : m.wf = true) : (m.writeVecs o a vs).wf = true := by
  induction vs generalizing a m with
  | nil => exact hm
  | cons v vs ih =>
    rw [List.length_cons] at ha
    exact ih (by omega) (Memory.wf_writeVec (by omega) v hm)

/-- A store of whole registers leaves every byte outside its footprint alone. -/
theorem Memory.read_writeVecs_outside (o : Config.ByteOrder) {c : Nat} (vs : List VecBits) {a : Nat} {m : Memory}
    (h : c < a ∨ a + 16 * vs.length ≤ c) : (m.writeVecs o a vs).read c = m.read c := by
  induction vs generalizing a m with
  | nil => rfl
  | cons v vs ih =>
    rw [List.length_cons] at h
    rw [Memory.writeVecs, ih (by omega), Memory.read_writeVec_outside (by omega)]

/-- The bytes a store of whole registers writes: byte element k of part s at `a + 16 s + k` (20_memory.md R62). -/
theorem Memory.read_writeVecs (o : Config.ByteOrder) {k : Nat} (hk : k < 16) {vs : List VecBits} {a : Nat} {m : Memory} {s : Nat} {v : VecBits}
    (ha : a + 16 * vs.length ≤ addressLimit) (hm : m.wf = true) (hv : vs[s]? = some v) :
    (m.writeVecs o a vs).read (a + 16 * s + k) = byteOf v (4 * (k / 4) + byteIndex o (k % 4)) := by
  induction vs generalizing a m s with
  | nil => simp at hv
  | cons w vs ih =>
    rw [List.length_cons] at ha
    cases s with
    | zero =>
      simp only [List.getElem?_cons_zero, Option.some.injEq] at hv
      subst hv
      rw [Memory.writeVecs, Memory.read_writeVecs_outside o vs (by omega), Nat.mul_zero, Nat.add_zero]
      exact Memory.read_writeVec (by omega) hm w hk
    | succ s =>
      rw [List.getElem?_cons_succ] at hv
      have e : a + 16 * (s + 1) + k = a + 16 + 16 * s + k := by omega
      rw [Memory.writeVecs, e]
      exact ih (by omega) (Memory.wf_writeVec (by omega) w hm) hv

/-- The byte elements of a register that is read from memory (20_memory.md R62, 45_load_store.md R222). -/
theorem byteOf_readVec (m : Memory) (o : Config.ByteOrder) (a : Nat) {k : Nat} (hk : k < 16) :
    byteOf (m.readVec o a) k = m.read (a + 4 * (k / 4) + byteIndex o (k % 4)) := by
  have hq : k % 4 < 4 := Nat.mod_lt _ (by omega)
  have hj : k / 4 < 4 := by omega
  have e : k = 4 * (k / 4) + k % 4 := by omega
  conv_lhs => rw [e]
  rw [← lane_lane _ hj hq]
  have h1 : lane 32 (m.readVec o a) (k / 4) = m.readWord o (a + 4 * (k / 4)) := lane_ofLanes (n := 4) _ hj
  rw [h1]
  exact lane_ofLanes (n := 4) _ hq

/-- Reading back the register that was stored gives the register, whatever the byte order (20_memory.md R64). -/
theorem readVec_writeVecs (o : Config.ByteOrder) {vs : List VecBits} {a : Nat} {m : Memory} {s : Nat} {v : VecBits}
    (ha : a + 16 * vs.length ≤ addressLimit) (hm : m.wf = true) (hv : vs[s]? = some v) :
    (m.writeVecs o a vs).readVec o (a + 16 * s) = v := by
  refine eq_of_lanes (w := 8) (n := 16) fun k hk => ?_
  have hq : k % 4 < 4 := Nat.mod_lt _ (by omega)
  have hq' := byteIndex_lt (o := o) hq
  have e : a + 16 * s + 4 * (k / 4) + byteIndex o (k % 4) = a + 16 * s + (4 * (k / 4) + byteIndex o (k % 4)) := by omega
  have hd : (4 * (k / 4) + byteIndex o (k % 4)) / 4 = k / 4 := by omega
  have hmod : (4 * (k / 4) + byteIndex o (k % 4)) % 4 = byteIndex o (k % 4) := by omega
  show byteOf _ k = byteOf v k
  rw [byteOf_readVec _ _ _ hk, e, Memory.read_writeVecs o (by omega) ha hm hv, hd, hmod, byteIndex_byteIndex o hq]
  congr 1
  omega

end Sys2Proof.Machine
end

