-- ==== Sys2Proof/Laws/State.lean ====
section
/-! SUPPORT. What each named update of a slice or of the state does to each field: one lemma for each field of each update, true by rfl. -/

namespace Sys2Proof.Machine

@[simp] theorem Slice.setReg_vr (sl : Slice) (r : VReg) (v : VecBits) : (sl.setReg r v).vr = sl.vr.set r v := rfl
@[simp] theorem Slice.setReg_acc (sl : Slice) (r : VReg) (v : VecBits) : (sl.setReg r v).acc = sl.acc := rfl
@[simp] theorem Slice.setReg_vcr (sl : Slice) (r : VReg) (v : VecBits) : (sl.setReg r v).vcr = sl.vcr := rfl

@[simp] theorem Slice.setAcc_vr (sl : Slice) (v : AccBits) : (sl.setAcc v).vr = sl.vr := rfl
@[simp] theorem Slice.setAcc_acc (sl : Slice) (v : AccBits) : (sl.setAcc v).acc = v := rfl
@[simp] theorem Slice.setAcc_vcr (sl : Slice) (v : AccBits) : (sl.setAcc v).vcr = sl.vcr := rfl

@[simp] theorem Slice.setVcr_vr (sl : Slice) (v : VcrBits) : (sl.setVcr v).vr = sl.vr := rfl
@[simp] theorem Slice.setVcr_acc (sl : Slice) (v : VcrBits) : (sl.setVcr v).acc = sl.acc := rfl
@[simp] theorem Slice.setVcr_vcr (sl : Slice) (v : VcrBits) : (sl.setVcr v).vcr = v := rfl

@[simp] theorem State.mapSlices_slices (s : State) (f : Nat → Slice → Slice) : (s.mapSlices f).slices = s.slices.mapIdx f := rfl
@[simp] theorem State.mapSlices_gpr (s : State) (f : Nat → Slice → Slice) : (s.mapSlices f).gpr = s.gpr := rfl
@[simp] theorem State.mapSlices_pc (s : State) (f : Nat → Slice → Slice) : (s.mapSlices f).pc = s.pc := rfl
@[simp] theorem State.mapSlices_mem (s : State) (f : Nat → Slice → Slice) : (s.mapSlices f).mem = s.mem := rfl
@[simp] theorem State.mapSlices_ioLog (s : State) (f : Nat → Slice → Slice) : (s.mapSlices f).ioLog = s.ioLog := rfl
@[simp] theorem State.mapSlices_text (s : State) (f : Nat → Slice → Slice) : (s.mapSlices f).text = s.text := rfl
@[simp] theorem State.mapSlices_platform (s : State) (f : Nat → Slice → Slice) : (s.mapSlices f).platform = s.platform := rfl
@[simp] theorem State.mapSlices_params (s : State) (f : Nat → Slice → Slice) : (s.mapSlices f).params = s.params := rfl
@[simp] theorem State.mapSlices_retired (s : State) (f : Nat → Slice → Slice) : (s.mapSlices f).retired = s.retired := rfl

@[simp] theorem State.setMem_slices (s : State) (m : Memory) : (s.setMem m).slices = s.slices := rfl
@[simp] theorem State.setMem_gpr (s : State) (m : Memory) : (s.setMem m).gpr = s.gpr := rfl
@[simp] theorem State.setMem_pc (s : State) (m : Memory) : (s.setMem m).pc = s.pc := rfl
@[simp] theorem State.setMem_mem (s : State) (m : Memory) : (s.setMem m).mem = m := rfl
@[simp] theorem State.setMem_ioLog (s : State) (m : Memory) : (s.setMem m).ioLog = s.ioLog := rfl
@[simp] theorem State.setMem_text (s : State) (m : Memory) : (s.setMem m).text = s.text := rfl
@[simp] theorem State.setMem_platform (s : State) (m : Memory) : (s.setMem m).platform = s.platform := rfl
@[simp] theorem State.setMem_params (s : State) (m : Memory) : (s.setMem m).params = s.params := rfl
@[simp] theorem State.setMem_retired (s : State) (m : Memory) : (s.setMem m).retired = s.retired := rfl

@[simp] theorem State.logIo_slices (s : State) (e : Config.IoEvent) : (s.logIo e).slices = s.slices := rfl
@[simp] theorem State.logIo_gpr (s : State) (e : Config.IoEvent) : (s.logIo e).gpr = s.gpr := rfl
@[simp] theorem State.logIo_pc (s : State) (e : Config.IoEvent) : (s.logIo e).pc = s.pc := rfl
@[simp] theorem State.logIo_mem (s : State) (e : Config.IoEvent) : (s.logIo e).mem = s.mem := rfl
@[simp] theorem State.logIo_ioLog (s : State) (e : Config.IoEvent) : (s.logIo e).ioLog = s.ioLog ++ [e] := rfl
@[simp] theorem State.logIo_text (s : State) (e : Config.IoEvent) : (s.logIo e).text = s.text := rfl
@[simp] theorem State.logIo_platform (s : State) (e : Config.IoEvent) : (s.logIo e).platform = s.platform := rfl
@[simp] theorem State.logIo_params (s : State) (e : Config.IoEvent) : (s.logIo e).params = s.params := rfl
@[simp] theorem State.logIo_retired (s : State) (e : Config.IoEvent) : (s.logIo e).retired = s.retired := rfl

@[simp] theorem State.advance_slices (s : State) : s.advance.slices = s.slices := rfl
@[simp] theorem State.advance_gpr (s : State) : s.advance.gpr = s.gpr := rfl
@[simp] theorem State.advance_pc (s : State) : s.advance.pc = s.pc + 4 := rfl
@[simp] theorem State.advance_mem (s : State) : s.advance.mem = s.mem := rfl
@[simp] theorem State.advance_ioLog (s : State) : s.advance.ioLog = s.ioLog := rfl
@[simp] theorem State.advance_text (s : State) : s.advance.text = s.text := rfl
@[simp] theorem State.advance_platform (s : State) : s.advance.platform = s.platform := rfl
@[simp] theorem State.advance_params (s : State) : s.advance.params = s.params := rfl
@[simp] theorem State.advance_retired (s : State) : s.advance.retired = s.retired + 1 := rfl

@[simp] theorem State.withFetchWord_slices (s : State) (nbits w : Nat) : (s.withFetchWord nbits w).slices = s.slices := rfl
@[simp] theorem State.withFetchWord_gpr (s : State) (nbits w : Nat) : (s.withFetchWord nbits w).gpr = s.gpr := rfl
@[simp] theorem State.withFetchWord_pc (s : State) (nbits w : Nat) : (s.withFetchWord nbits w).pc = BitVec.ofNat 32 (4 * (s.pc.toNat / 4)) := rfl
@[simp] theorem State.withFetchWord_mem (s : State) (nbits w : Nat) : (s.withFetchWord nbits w).mem = s.mem := rfl
@[simp] theorem State.withFetchWord_ioLog (s : State) (nbits w : Nat) : (s.withFetchWord nbits w).ioLog = s.ioLog := rfl
@[simp] theorem State.withFetchWord_text (s : State) (nbits w : Nat) : (s.withFetchWord nbits w).text = ProgramText.mk (BitVec.ofNat 32 (4 * (s.pc.toNat / 4))) (bytesOfWord (BitVec.ofNat 32 (w % 2 ^ nbits))) := rfl
@[simp] theorem State.withFetchWord_platform (s : State) (nbits w : Nat) : (s.withFetchWord nbits w).platform = s.platform := rfl
@[simp] theorem State.withFetchWord_params (s : State) (nbits w : Nat) : (s.withFetchWord nbits w).params = s.params := rfl
@[simp] theorem State.withFetchWord_retired (s : State) (nbits w : Nat) : (s.withFetchWord nbits w).retired = s.retired := rfl

/-- A register read after a register write: the written register holds the value, every other one what it held. -/
theorem Slice.reg_setReg (sl : Slice) (r q : VReg) (v : VecBits) :
    (sl.setReg r v).reg q = if q = r then v else sl.reg q := by
  unfold Slice.reg
  simp only [Slice.setReg_vr, Fin.getElem_fin, Vector.getElem_set]
  by_cases h : q = r
  · simp [h]
  · have : ¬ (r : Nat) = q := fun e => h (Fin.ext e.symm)
    simp [h, this]

@[simp] theorem Slice.reg_setReg_self (sl : Slice) (r : VReg) (v : VecBits) : (sl.setReg r v).reg r = v := by
  simp [Slice.reg_setReg]

theorem Slice.reg_setReg_ne (sl : Slice) {r q : VReg} (h : q ≠ r) (v : VecBits) : (sl.setReg r v).reg q = sl.reg q := by
  simp [Slice.reg_setReg, h]

@[simp] theorem Slice.reg_setAcc (sl : Slice) (v : AccBits) (q : VReg) : (sl.setAcc v).reg q = sl.reg q := rfl

@[simp] theorem Slice.reg_setVcr (sl : Slice) (v : VcrBits) (q : VReg) : (sl.setVcr v).reg q = sl.reg q := rfl

/-- Doing something in every slice keeps the number of slices. -/
@[simp] theorem State.mapSlices_numSlices (s : State) (f : Nat → Slice → Slice) : (s.mapSlices f).numSlices = s.numSlices := by
  simp [State.numSlices]

/-- Slice `k` after an operation done in every slice. -/
theorem State.mapSlices_getElem? (s : State) (f : Nat → Slice → Slice) (k : Nat) :
    (s.mapSlices f).slices[k]? = (s.slices[k]?).map (f k) := by
  simp [List.getElem?_mapIdx]

end Sys2Proof.Machine
end

