-- ==== Sys2Proof/Laws/Ops.lean ====
section
/-! SUPPORT. For each shared operation, once: when it answers a next state, which one, and what that state holds. -/

namespace Sys2Proof.Machine

/-- `finish` answers a next state exactly when pc + 4 does not pass 2^32, and it is the advanced one. -/
theorem finish_next_iff {s t : State} : s.finish = .next t ↔ PcFits s ∧ t = s.advance := by
  unfold State.finish PcFits
  split <;> simp_all [eq_comm]

theorem finish_of_fits {s : State} (h : PcFits s) : s.finish = .next s.advance := finish_next_iff.2 ⟨h, rfl⟩

theorem finish_ne_fault (s : State) (f : Fault) : s.finish ≠ .fault f := by
  unfold State.finish
  split <;> simp

theorem finish_refused {s : State} (h : ¬PcFits s) : s.finish = .refused .pcWrap := by
  unfold State.finish
  exact if_neg h

/-- Everything `halfToReg` can answer as a next state. -/
theorem halfToReg_next_iff {vrt : VReg} {c : Cond} {f : Slice → Nat → Half} {s t : State} :
    halfToReg vrt c f s = .next t ↔ condHStops s c = false ∧ PcFits s ∧
      t = (s.mapSlices fun k sl => sl.setReg vrt (ofHalves fun i =>
        if condH s.params s.retired k c sl.vcr i then f sl i else sl.h vrt i)).advance := by
  unfold halfToReg
  cases condHStops s c <;> simp [finish_next_iff, PcFits]

/-- Everything `halfToAcc` can answer as a next state. -/
theorem halfToAcc_next_iff {c : Cond} {f : Slice → Nat → Word} {s t : State} :
    halfToAcc c f s = .next t ↔ condHStops s c = false ∧ PcFits s ∧
      t = (s.mapSlices fun k sl => sl.setAcc (ofAccWords fun i =>
        if condH s.params s.retired k c sl.vcr i then f sl i else sl.aw i)).advance := by
  unfold halfToAcc
  cases condHStops s c <;> simp [finish_next_iff, PcFits]

/-- Everything `byteToReg` can answer as a next state. -/
theorem byteToReg_next_iff {vrt : VReg} {c : Cond} {f : Slice → Nat → Byte} {s t : State} :
    byteToReg vrt c f s = .next t ↔ PcFits s ∧
      t = (s.mapSlices fun _ sl => sl.setReg vrt (ofBytes fun j =>
        if condB c sl.vcr j then f sl j else sl.b vrt j)).advance := by
  simp [byteToReg, finish_next_iff, PcFits]

/-- Everything `byteToAcc` can answer as a next state. -/
theorem byteToAcc_next_iff {c : Cond} {f : Slice → Nat → Half} {s t : State} :
    byteToAcc c f s = .next t ↔ PcFits s ∧
      t = (s.mapSlices fun _ sl => sl.setAcc (ofAccHalves fun j =>
        if condB c sl.vcr j then f sl j else sl.ah j)).advance := by
  simp [byteToAcc, finish_next_iff, PcFits]

/-- Everything `writeReg` can answer as a next state. -/
theorem writeReg_next_iff {vrt : VReg} {f : Nat → Slice → VecBits} {s t : State} :
    writeReg vrt f s = .next t ↔ PcFits s ∧ t = (s.mapSlices fun k sl => sl.setReg vrt (f k sl)).advance := by
  simp [writeReg, finish_next_iff, PcFits]

/-- Everything `writeVcr` can answer as a next state. -/
theorem writeVcr_next_iff {f : Slice → Nat → Int} {s t : State} :
    writeVcr f s = .next t ↔ PcFits s ∧
      t = (s.mapSlices fun _ sl => sl.setVcr (ofVcrBits fun a k => compareZero a (f sl k))).advance := by
  simp [writeVcr, finish_next_iff, PcFits]

theorem halfToReg_ne_fault {vrt : VReg} {c : Cond} {f : Slice → Nat → Half} {s : State} (h : condHStops s c = false) (e : Fault) :
    halfToReg vrt c f s ≠ .fault e := by
  simp [halfToReg, h, finish_ne_fault]

theorem halfToAcc_ne_fault {c : Cond} {f : Slice → Nat → Word} {s : State} (h : condHStops s c = false) (e : Fault) :
    halfToAcc c f s ≠ .fault e := by
  simp [halfToAcc, h, finish_ne_fault]

theorem byteToReg_ne_fault {vrt : VReg} {c : Cond} {f : Slice → Nat → Byte} (s : State) (e : Fault) : byteToReg vrt c f s ≠ .fault e :=
  finish_ne_fault _ e

theorem byteToAcc_ne_fault {c : Cond} {f : Slice → Nat → Half} (s : State) (e : Fault) : byteToAcc c f s ≠ .fault e := finish_ne_fault _ e

theorem writeReg_ne_fault {vrt : VReg} {f : Nat → Slice → VecBits} (s : State) (e : Fault) : writeReg vrt f s ≠ .fault e := finish_ne_fault _ e

theorem writeVcr_ne_fault {f : Slice → Nat → Int} (s : State) (e : Fault) : writeVcr f s ≠ .fault e := finish_ne_fault _ e

/-- An operation done in every slice, then the end of the instruction: what each slice becomes. -/
theorem eachSlice_mapSlices {s : State} {f : Nat → Slice → Slice} {P : Nat → Slice → Slice → Prop} (h : ∀ k sl, P k sl (f k sl)) :
    EachSlice s (s.mapSlices f).advance P := by
  refine ⟨by simp, fun k sl tl hs ht => ?_⟩
  simp only [State.advance_slices, State.mapSlices_getElem?, hs, Option.map_some, Option.some.injEq] at ht
  exact ht ▸ h k sl

theorem onlySlicesChange_mapSlices (s : State) (f : Nat → Slice → Slice) : OnlySlicesChange s (s.mapSlices f).advance :=
  ⟨rfl, fun _ => rfl, rfl, rfl, rfl, rfl⟩

theorem onlyRegChanges_setReg (sl : Slice) (r : VReg) (v : VecBits) : OnlyRegChanges r sl (sl.setReg r v) :=
  ⟨fun _ h => Slice.reg_setReg_ne sl h v, rfl, rfl⟩

theorem onlyAccChanges_setAcc (sl : Slice) (v : AccBits) : OnlyAccChanges sl (sl.setAcc v) := ⟨fun _ => rfl, rfl⟩

/-- What a conditional halfword instruction leaves in VRT, and its frame. -/
theorem halfToReg_written {vrt : VReg} {c : Cond} {f : Slice → Nat → Half} {s : State} (hc : condHStops s c = false) (hp : PcFits s) :
    ∃ t, halfToReg vrt c f s = .next t ∧ HalfRegWritten s t vrt c f :=
  ⟨_, halfToReg_next_iff.2 ⟨hc, hp, rfl⟩,
    eachSlice_mapSlices fun _ sl => ⟨fun i hi => by rw [Slice.h, Slice.reg_setReg_self, halfOf_ofHalves _ hi], onlyRegChanges_setReg sl vrt _⟩,
    onlySlicesChange_mapSlices s _⟩

/-- What a conditional halfword instruction leaves in the accumulator, and its frame. -/
theorem halfToAcc_written {c : Cond} {f : Slice → Nat → Word} {s : State} (hc : condHStops s c = false) (hp : PcFits s) :
    ∃ t, halfToAcc c f s = .next t ∧ HalfAccWritten s t c f :=
  ⟨_, halfToAcc_next_iff.2 ⟨hc, hp, rfl⟩,
    eachSlice_mapSlices fun _ sl => ⟨fun i hi => by rw [Slice.aw, Slice.setAcc_acc, accWordOf_ofAccWords _ hi], onlyAccChanges_setAcc sl _⟩,
    onlySlicesChange_mapSlices s _⟩

/-- What a conditional byte instruction leaves in VRT, and its frame. -/
theorem byteToReg_written {vrt : VReg} {c : Cond} {f : Slice → Nat → Byte} {s : State} (hp : PcFits s) :
    ∃ t, byteToReg vrt c f s = .next t ∧ ByteRegWritten s t vrt c f :=
  ⟨_, byteToReg_next_iff.2 ⟨hp, rfl⟩,
    eachSlice_mapSlices fun _ sl => ⟨fun j hj => by rw [Slice.b, Slice.reg_setReg_self, byteOf_ofBytes _ hj], onlyRegChanges_setReg sl vrt _⟩,
    onlySlicesChange_mapSlices s _⟩

/-- What a conditional byte instruction leaves in the accumulator, and its frame. -/
theorem byteToAcc_written {c : Cond} {f : Slice → Nat → Half} {s : State} (hp : PcFits s) :
    ∃ t, byteToAcc c f s = .next t ∧ ByteAccWritten s t c f :=
  ⟨_, byteToAcc_next_iff.2 ⟨hp, rfl⟩,
    eachSlice_mapSlices fun k sl => ⟨fun j hj => by rw [Slice.ah, Slice.setAcc_acc, accHalfOf_ofAccHalves _ hj], onlyAccChanges_setAcc sl _⟩,
    onlySlicesChange_mapSlices s _⟩

/-- What an instruction that writes VRT whole leaves in it, and its frame. -/
theorem writeReg_written {vrt : VReg} {f : Nat → Slice → VecBits} {s : State} (hp : PcFits s) :
    ∃ t, writeReg vrt f s = .next t ∧ EachSlice s t (fun k sl tl => tl.reg vrt = f k sl ∧ OnlyRegChanges vrt sl tl) ∧ OnlySlicesChange s t :=
  ⟨_, writeReg_next_iff.2 ⟨hp, rfl⟩,
    eachSlice_mapSlices fun _ sl => ⟨Slice.reg_setReg_self sl vrt _, onlyRegChanges_setReg sl vrt _⟩,
    onlySlicesChange_mapSlices s _⟩

/-- Each slice's relation may be weakened. -/
theorem EachSlice.mono {s t : State} {P Q : Nat → Slice → Slice → Prop} (h : EachSlice s t P) (hPQ : ∀ k sl tl, P k sl tl → Q k sl tl) :
    EachSlice s t Q :=
  ⟨h.1, fun k sl tl hs ht => hPQ k sl tl (h.2 k sl tl hs ht)⟩

/-- The results of a conditional instruction may be rewritten element by element. -/
theorem HalfRegWritten.congr {s t : State} {vrt : VReg} {c : Cond} {f g : Slice → Nat → Half} (h : HalfRegWritten s t vrt c f)
    (hfg : ∀ sl i, f sl i = g sl i) : HalfRegWritten s t vrt c g := by
  obtain rfl : f = g := funext fun sl => funext fun i => hfg sl i
  exact h

theorem HalfAccWritten.congr {s t : State} {c : Cond} {f g : Slice → Nat → Word} (h : HalfAccWritten s t c f)
    (hfg : ∀ sl i, f sl i = g sl i) : HalfAccWritten s t c g := by
  obtain rfl : f = g := funext fun sl => funext fun i => hfg sl i
  exact h

theorem ByteRegWritten.congr {s t : State} {vrt : VReg} {c : Cond} {f g : Slice → Nat → Byte} (h : ByteRegWritten s t vrt c f)
    (hfg : ∀ sl j, f sl j = g sl j) : ByteRegWritten s t vrt c g := by
  obtain rfl : f = g := funext fun sl => funext fun j => hfg sl j
  exact h

theorem ByteAccWritten.congr {s t : State} {c : Cond} {f g : Slice → Nat → Half} (h : ByteAccWritten s t c f)
    (hfg : ∀ sl j, f sl j = g sl j) : ByteAccWritten s t c g := by
  obtain rfl : f = g := funext fun sl => funext fun j => hfg sl j
  exact h

/-- An address is in some region, as a Bool and as a Prop. -/
theorem inRegions_iff {rs : List Region} {a : Nat} : inRegions rs a = true ↔ Exists rs a := by
  simp [inRegions, Exists, List.any_eq_true]

/-- Every byte of the footprint exists, as a Bool and as a Prop. -/
theorem footprintMapped_iff {s : State} {ea : Nat} :
    footprintMapped s ea = true ↔ ∀ k < 16 * s.slices.length, Exists s.platform.ram (ea + k) := by
  simp [footprintMapped, inRegions_iff, State.footprint, State.numSlices]

/-- Two ranges meet when an address is in both; here, an address of the footprint in the program text. -/
theorem meetsText_iff {s : State} {ea : Nat} : meetsText s ea = false ↔ ClearOfText s ea := by
  unfold meetsText rangesMeet ClearOfText State.footprint State.numSlices
  rw [decide_eq_false_iff_not]
  constructor
  · intro h k hk hin
    omega
  · intro h hlt
    by_cases hle : ea ≤ s.text.base.toNat
    · exact h (s.text.base.toNat - ea) (by omega) (by omega)
    · exact h 0 (by omega) (by omega)

/-- The multiple that FXV_MEM_ALIGN asks for, as the checks compute it and as the rule says it (20_memory.md R65). -/
theorem aligned_iff {s : State} {ea : Nat} : Aligned s ea ↔ ea % s.memAlign = 0 := by
  unfold Aligned State.memAlign State.numSlices
  cases s.params.memAlign <;> simp

/-- When the address checks let a load pass. -/
theorem memCheck_load_iff {s : State} {ea : Nat} : memCheck s ea false = none ↔ AccessOk s ea := by
  unfold memCheck AccessOk
  rw [← footprintMapped_iff, aligned_iff]
  unfold State.footprint State.numSlices
  split
  · simp; omega
  · split
    · simp; omega
    · split <;> simp_all

/-- When the address checks let a store pass. -/
theorem memCheck_store_iff {s : State} {ea : Nat} : memCheck s ea true = none ↔ AccessOk s ea ∧ ClearOfText s ea := by
  unfold memCheck AccessOk
  rw [← footprintMapped_iff, ← meetsText_iff, aligned_iff]
  unfold State.footprint State.numSlices
  split
  · simp; omega
  · split
    · simp; omega
    · split
      · simp_all
      · cases meetsText s ea <;> simp_all

end Sys2Proof.Machine
end

