-- ==== Sys2Proof/Laws/Exec.lean ====
section
/-! SUPPORT. What an instruction can do, said once: every next state `exec` answers is one of six shapes, and when it faults. -/

namespace Sys2Proof.Machine

/-- A halfword-conditional instruction that writes VRT stops where it would read a mixed field. -/
theorem halfToReg_stops {vrt : VReg} {c : Cond} {f : Slice → Nat → Half} {s : State} (h : condHStops s c = true) :
    halfToReg vrt c f s = .fault .vcrMixed := if_pos h

/-- A halfword-conditional instruction that writes the accumulator stops where it would read a mixed field. -/
theorem halfToAcc_stops {c : Cond} {f : Slice → Nat → Word} {s : State} (h : condHStops s c = true) :
    halfToAcc c f s = .fault .vcrMixed := if_pos h

/-- A halfword-conditional instruction that writes VRT faults exactly where the VCR stops it. -/
theorem halfToReg_fault_iff {vrt : VReg} {c : Cond} {f : Slice → Nat → Half} {s : State} {e : Fault} :
    halfToReg vrt c f s = .fault e ↔ condHStops s c = true := by
  cases hc : condHStops s c with
  | true => simp [halfToReg_stops hc]
  | false => simp [halfToReg_ne_fault hc e]

/-- A halfword-conditional instruction that writes the accumulator faults exactly where the VCR stops it. -/
theorem halfToAcc_fault_iff {c : Cond} {f : Slice → Nat → Word} {s : State} {e : Fault} :
    halfToAcc c f s = .fault e ↔ condHStops s c = true := by
  cases hc : condHStops s c with
  | true => simp [halfToAcc_stops hc]
  | false => simp [halfToAcc_ne_fault hc e]

/-- The next states of an instruction that changes vector registers, accumulators or condition registers only, or stores, or does IO. -/
inductive Effect (i : Instr) (s : State) : State → Prop where
  /-- A vector register of every slice is written. -/
  | reg (hc : writesVcr i = false) (ha : writesAcc i = false) (vrt : VReg) (f : Nat → Slice → VecBits) :
      Effect i s (s.mapSlices fun k sl => sl.setReg vrt (f k sl))
  /-- The accumulator of every slice is written. -/
  | acc (hc : writesVcr i = false) (ha : writesAcc i = true) (f : Nat → Slice → AccBits) :
      Effect i s (s.mapSlices fun k sl => sl.setAcc (f k sl))
  /-- The VCR of every slice is written by a compare, from elements that the two nibbles of a byte share. -/
  | vcr (hc : writesVcr i = true) (ha : writesAcc i = false) (f : Slice → Nat → Int) (hf : ∀ sl j, f sl (2 * j) = f sl (2 * j + 1)) :
      Effect i s (s.mapSlices fun _ sl => sl.setVcr (ofVcrBits fun a k => compareZero a (f sl k)))
  /-- A vector register of every slice is stored. -/
  | store (vrt : VReg) (ra rb : GReg) (hi : i = .fxvstax vrt ra rb) (hm : memCheck s (effectiveAddress s ra rb).toNat true = none) :
      Effect i s (s.setMem (s.mem.writeVecs s.params.byteOrder (effectiveAddress s ra rb).toNat (s.slices.map fun sl => sl.reg vrt)))
  /-- A vector register of every slice is read from an IO location. -/
  | input (vrt : VReg) (ra rb : GReg) (hi : i = .fxvinx vrt ra rb) (e : Config.IoEvent) (f : Nat → Slice → VecBits) :
      Effect i s ((s.logIo e).mapSlices fun k sl => sl.setReg vrt (f k sl))
  /-- A vector register of every slice is written to an IO location. -/
  | output (vrt : VReg) (ra rb : GReg) (hi : i = .fxvoutx vrt ra rb) (e : Config.IoEvent) : Effect i s (s.logIo e)

section
variable {i : Instr} {s t : State}

theorem effect_of_halfToReg (hc : writesVcr i = false) (ha : writesAcc i = false) {vrt : VReg} {c : Cond} {f : Slice → Nat → Half}
    (h : halfToReg vrt c f s = .next t) : PcFits s ∧ ∃ u, Effect i s u ∧ t = u.advance :=
  have ⟨_, hp, e⟩ := halfToReg_next_iff.1 h
  ⟨hp, _, .reg hc ha vrt _, e⟩

theorem effect_of_halfToAcc (hc : writesVcr i = false) (ha : writesAcc i = true) {c : Cond} {f : Slice → Nat → Word}
    (h : halfToAcc c f s = .next t) : PcFits s ∧ ∃ u, Effect i s u ∧ t = u.advance :=
  have ⟨_, hp, e⟩ := halfToAcc_next_iff.1 h
  ⟨hp, _, .acc hc ha _, e⟩

theorem effect_of_byteToReg (hc : writesVcr i = false) (ha : writesAcc i = false) {vrt : VReg} {c : Cond} {f : Slice → Nat → Byte}
    (h : byteToReg vrt c f s = .next t) : PcFits s ∧ ∃ u, Effect i s u ∧ t = u.advance :=
  have ⟨hp, e⟩ := byteToReg_next_iff.1 h
  ⟨hp, _, .reg hc ha vrt _, e⟩

theorem effect_of_byteToAcc (hc : writesVcr i = false) (ha : writesAcc i = true) {c : Cond} {f : Slice → Nat → Half}
    (h : byteToAcc c f s = .next t) : PcFits s ∧ ∃ u, Effect i s u ∧ t = u.advance :=
  have ⟨hp, e⟩ := byteToAcc_next_iff.1 h
  ⟨hp, _, .acc hc ha _, e⟩

theorem effect_of_writeReg (hc : writesVcr i = false) (ha : writesAcc i = false) {vrt : VReg} {f : Nat → Slice → VecBits}
    (h : writeReg vrt f s = .next t) : PcFits s ∧ ∃ u, Effect i s u ∧ t = u.advance :=
  have ⟨hp, e⟩ := writeReg_next_iff.1 h
  ⟨hp, _, .reg hc ha vrt _, e⟩

theorem effect_of_writeVcr (hc : writesVcr i = true) (ha : writesAcc i = false) {f : Slice → Nat → Int}
    (hf : ∀ sl j, f sl (2 * j) = f sl (2 * j + 1)) (h : writeVcr f s = .next t) : PcFits s ∧ ∃ u, Effect i s u ∧ t = u.advance :=
  have ⟨hp, e⟩ := writeVcr_next_iff.1 h
  ⟨hp, _, .vcr hc ha f hf, e⟩

end

/-- Everything `exec` can answer as a next state: pc + 4 fits, and the state is that of one effect, advanced. -/
theorem exec_next_effect {i : Instr} {s t : State} (h : exec i s = .next t) : PcFits s ∧ ∃ u, Effect i s u ∧ t = u.advance := by
  cases i with
  | fxvcmphm vra => exact effect_of_writeVcr (f := fun sl k => sl.hInt vra (k / 4)) rfl rfl (fun sl j => congrArg (sl.hInt vra) (by omega)) h
  | fxvcmpb vra => exact effect_of_writeVcr (f := fun sl k => sl.bInt vra (k / 2)) rfl rfl (fun sl j => congrArg (sl.bInt vra) (by omega)) h
  | fxvpckbl vrt vra vrb n =>
    simp only [exec, execFxvpckbl] at h
    split at h
    · cases h
    · exact effect_of_writeReg rfl rfl h
  | fxvupckbl vrt vra vrb n =>
    simp only [exec, execFxvupckbl] at h
    split at h
    · cases h
    · exact effect_of_writeReg rfl rfl h
  | fxvupckbr vrt vra vrb n =>
    simp only [exec, execFxvupckbr] at h
    split at h
    · cases h
    · exact effect_of_writeReg rfl rfl h
  | fxvlax vrt ra rb =>
    simp only [exec, execFxvlax] at h
    split at h
    · cases h
    · exact effect_of_writeReg rfl rfl h
  | fxvstax vrt ra rb =>
    simp only [exec, execFxvstax] at h
    split at h
    · cases h
    · next hm =>
      obtain ⟨hp, e⟩ := finish_next_iff.1 h
      exact ⟨hp, _, .store vrt ra rb rfl hm, e⟩
  | fxvinx vrt ra rb =>
    simp only [exec, execFxvinx] at h
    split at h
    · obtain ⟨hp, e⟩ := writeReg_next_iff.1 h
      exact ⟨hp, _, .input vrt ra rb rfl _ _, e⟩
    · cases h
  | fxvoutx vrt ra rb =>
    simp only [exec, execFxvoutx] at h
    split at h
    · obtain ⟨hp, e⟩ := finish_next_iff.1 h
      exact ⟨hp, _, .output vrt ra rb rfl _, e⟩
    · cases h
  | fxvmahm => exact effect_of_halfToReg rfl rfl h
  | fxvmabm => exact effect_of_byteToReg rfl rfl h
  | fxvmtacb => exact effect_of_byteToAcc rfl rfl h
  | fxvmtach => exact effect_of_halfToAcc rfl rfl h
  | fxvmahfs => exact effect_of_halfToReg rfl rfl h
  | fxvmabfs => exact effect_of_byteToReg rfl rfl h
  | fxvmtacbf => exact effect_of_byteToAcc rfl rfl h
  | fxvmtachf => exact effect_of_halfToAcc rfl rfl h
  | fxvmatachm => exact effect_of_halfToAcc rfl rfl h
  | fxvmatacbm => exact effect_of_byteToAcc rfl rfl h
  | fxvmatachfs => exact effect_of_halfToAcc rfl rfl h
  | fxvmatacbfs => exact effect_of_byteToAcc rfl rfl h
  | fxvmulhm => exact effect_of_halfToReg rfl rfl h
  | fxvmulbm => exact effect_of_byteToReg rfl rfl h
  | fxvmulhfs => exact effect_of_halfToReg rfl rfl h
  | fxvmulbfs => exact effect_of_byteToReg rfl rfl h
  | fxvmultachm => exact effect_of_halfToAcc rfl rfl h
  | fxvmultacbm => exact effect_of_byteToAcc rfl rfl h
  | fxvmultachfs => exact effect_of_halfToAcc rfl rfl h
  | fxvmultacbfs => exact effect_of_byteToAcc rfl rfl h
  | fxvpckbu => exact effect_of_writeReg rfl rfl h
  | fxvsplath => exact effect_of_writeReg rfl rfl h
  | fxvsplatb => exact effect_of_writeReg rfl rfl h
  | fxvshh => exact effect_of_writeReg rfl rfl h
  | fxvshb => exact effect_of_writeReg rfl rfl h
  | fxvsel => exact effect_of_writeReg rfl rfl h
  | fxvsubhm => exact effect_of_halfToReg rfl rfl h
  | fxvsubbm => exact effect_of_byteToReg rfl rfl h
  | fxvsubhfs => exact effect_of_halfToReg rfl rfl h
  | fxvsubbfs => exact effect_of_byteToReg rfl rfl h
  | fxvaddactachm => exact effect_of_halfToAcc rfl rfl h
  | fxvaddactacb => exact effect_of_byteToAcc rfl rfl h
  | fxvaddactachf => exact effect_of_halfToAcc rfl rfl h
  | fxvaddactacbf => exact effect_of_byteToAcc rfl rfl h
  | fxvaddachm => exact effect_of_halfToReg rfl rfl h
  | fxvaddacbm => exact effect_of_byteToReg rfl rfl h
  | fxvaddachfs => exact effect_of_halfToReg rfl rfl h
  | fxvaddacbfs => exact effect_of_byteToReg rfl rfl h
  | fxvaddtachm => exact effect_of_halfToAcc rfl rfl h
  | fxvaddtacb => exact effect_of_byteToAcc rfl rfl h
  | fxvaddhm => exact effect_of_halfToReg rfl rfl h
  | fxvaddbm => exact effect_of_byteToReg rfl rfl h
  | fxvaddhfs => exact effect_of_halfToReg rfl rfl h
  | fxvaddbfs => exact effect_of_byteToReg rfl rfl h

section
variable {i : Instr} {s : State} {r : Result} {e : Fault}

theorem fault_iff_of_half {c : Cond} (hi : halfCondition? i = some c) (h : r = .fault e ↔ condHStops s c = true) :
    r = .fault e ↔ ∃ c, halfCondition? i = some c ∧ condHStops s c = true := by
  simp [hi, h]

theorem fault_iff_of_none (hi : halfCondition? i = none) (h : r ≠ .fault e) :
    r = .fault e ↔ ∃ c, halfCondition? i = some c ∧ condHStops s c = true := by
  simp [hi, h]

end

/-- When `exec` faults: exactly when the instruction is halfword-conditional and the VCR stops it. -/
theorem exec_fault_iff {i : Instr} {s : State} {e : Fault} :
    exec i s = .fault e ↔ ∃ c, halfCondition? i = some c ∧ condHStops s c = true := by
  cases i with
  | fxvcmphm => exact fault_iff_of_none rfl (writeVcr_ne_fault s e)
  | fxvcmpb => exact fault_iff_of_none rfl (writeVcr_ne_fault s e)
  | fxvpckbl vrt vra vrb n =>
    refine fault_iff_of_none rfl ?_
    simp only [exec, execFxvpckbl]
    split
    · simp
    · exact writeReg_ne_fault _ e
  | fxvupckbl vrt vra vrb n =>
    refine fault_iff_of_none rfl ?_
    simp only [exec, execFxvupckbl]
    split
    · simp
    · exact writeReg_ne_fault _ e
  | fxvupckbr vrt vra vrb n =>
    refine fault_iff_of_none rfl ?_
    simp only [exec, execFxvupckbr]
    split
    · simp
    · exact writeReg_ne_fault _ e
  | fxvlax vrt ra rb =>
    refine fault_iff_of_none rfl ?_
    simp only [exec, execFxvlax]
    split
    · simp
    · exact writeReg_ne_fault _ e
  | fxvstax vrt ra rb =>
    refine fault_iff_of_none rfl ?_
    simp only [exec, execFxvstax]
    split
    · simp
    · exact finish_ne_fault _ e
  | fxvinx vrt ra rb =>
    refine fault_iff_of_none rfl ?_
    simp only [exec, execFxvinx]
    split
    · exact writeReg_ne_fault _ e
    · simp
  | fxvoutx vrt ra rb =>
    refine fault_iff_of_none rfl ?_
    simp only [exec, execFxvoutx]
    split
    · exact finish_ne_fault _ e
    · simp
  | fxvmahm => exact fault_iff_of_half rfl halfToReg_fault_iff
  | fxvmabm => exact fault_iff_of_none rfl (byteToReg_ne_fault s e)
  | fxvmtacb => exact fault_iff_of_none rfl (byteToAcc_ne_fault s e)
  | fxvmtach => exact fault_iff_of_half rfl halfToAcc_fault_iff
  | fxvmahfs => exact fault_iff_of_half rfl halfToReg_fault_iff
  | fxvmabfs => exact fault_iff_of_none rfl (byteToReg_ne_fault s e)
  | fxvmtacbf => exact fault_iff_of_none rfl (byteToAcc_ne_fault s e)
  | fxvmtachf => exact fault_iff_of_half rfl halfToAcc_fault_iff
  | fxvmatachm => exact fault_iff_of_half rfl halfToAcc_fault_iff
  | fxvmatacbm => exact fault_iff_of_none rfl (byteToAcc_ne_fault s e)
  | fxvmatachfs => exact fault_iff_of_half rfl halfToAcc_fault_iff
  | fxvmatacbfs => exact fault_iff_of_none rfl (byteToAcc_ne_fault s e)
  | fxvmulhm => exact fault_iff_of_half rfl halfToReg_fault_iff
  | fxvmulbm => exact fault_iff_of_none rfl (byteToReg_ne_fault s e)
  | fxvmulhfs => exact fault_iff_of_half rfl halfToReg_fault_iff
  | fxvmulbfs => exact fault_iff_of_none rfl (byteToReg_ne_fault s e)
  | fxvmultachm => exact fault_iff_of_half rfl halfToAcc_fault_iff
  | fxvmultacbm => exact fault_iff_of_none rfl (byteToAcc_ne_fault s e)
  | fxvmultachfs => exact fault_iff_of_half rfl halfToAcc_fault_iff
  | fxvmultacbfs => exact fault_iff_of_none rfl (byteToAcc_ne_fault s e)
  | fxvpckbu => exact fault_iff_of_none rfl (writeReg_ne_fault s e)
  | fxvsplath => exact fault_iff_of_none rfl (writeReg_ne_fault s e)
  | fxvsplatb => exact fault_iff_of_none rfl (writeReg_ne_fault s e)
  | fxvshh => exact fault_iff_of_none rfl (writeReg_ne_fault s e)
  | fxvshb => exact fault_iff_of_none rfl (writeReg_ne_fault s e)
  | fxvsel => exact fault_iff_of_none rfl (writeReg_ne_fault s e)
  | fxvsubhm => exact fault_iff_of_half rfl halfToReg_fault_iff
  | fxvsubbm => exact fault_iff_of_none rfl (byteToReg_ne_fault s e)
  | fxvsubhfs => exact fault_iff_of_half rfl halfToReg_fault_iff
  | fxvsubbfs => exact fault_iff_of_none rfl (byteToReg_ne_fault s e)
  | fxvaddactachm => exact fault_iff_of_half rfl halfToAcc_fault_iff
  | fxvaddactacb => exact fault_iff_of_none rfl (byteToAcc_ne_fault s e)
  | fxvaddactachf => exact fault_iff_of_half rfl halfToAcc_fault_iff
  | fxvaddactacbf => exact fault_iff_of_none rfl (byteToAcc_ne_fault s e)
  | fxvaddachm => exact fault_iff_of_half rfl halfToReg_fault_iff
  | fxvaddacbm => exact fault_iff_of_none rfl (byteToReg_ne_fault s e)
  | fxvaddachfs => exact fault_iff_of_half rfl halfToReg_fault_iff
  | fxvaddacbfs => exact fault_iff_of_none rfl (byteToReg_ne_fault s e)
  | fxvaddtachm => exact fault_iff_of_half rfl halfToAcc_fault_iff
  | fxvaddtacb => exact fault_iff_of_none rfl (byteToAcc_ne_fault s e)
  | fxvaddhm => exact fault_iff_of_half rfl halfToReg_fault_iff
  | fxvaddbm => exact fault_iff_of_none rfl (byteToReg_ne_fault s e)
  | fxvaddhfs => exact fault_iff_of_half rfl halfToReg_fault_iff
  | fxvaddbfs => exact fault_iff_of_none rfl (byteToReg_ne_fault s e)

end Sys2Proof.Machine
end

