-- ==== Sys2Proof/Laws/PerInstr.lean ====
section
/-! SUPPORT. One fact about every instruction as syntax, one lemma for each constructor: the fixed bits of its word. -/

namespace Sys2Proof.Laws

/-- The fixed bits of an instruction's word: the primary opcode 4 and the instruction's XO, whatever its operands (30_encoding.md R97). -/
def FixedBits.Statement (i : Instr) : Prop :=
  i.wellFormed = true → (wordFields (encode i)).opcd = 4 ∧ (wordFields (encode i)).xo = i.xo

theorem fixedBits_of_wellFormed {i : Instr} (h : i.wellFormed = true) :
    (wordFields (encode i)).opcd = 4 ∧ (wordFields (encode i)).xo = i.xo := by
  rw [wordFields_encode h]
  exact ⟨rfl, rfl⟩

theorem FixedBits.fxvmahm (vrt : VReg) (vra : VReg) (vrb : VReg) (c : Cond) : FixedBits.Statement (.fxvmahm vrt vra vrb c) := fixedBits_of_wellFormed

theorem FixedBits.fxvmabm (vrt : VReg) (vra : VReg) (vrb : VReg) (c : Cond) : FixedBits.Statement (.fxvmabm vrt vra vrb c) := fixedBits_of_wellFormed

theorem FixedBits.fxvmtacb (vra : VReg) (c : Cond) : FixedBits.Statement (.fxvmtacb vra c) := fixedBits_of_wellFormed

theorem FixedBits.fxvmtach (vra : VReg) (c : Cond) : FixedBits.Statement (.fxvmtach vra c) := fixedBits_of_wellFormed

theorem FixedBits.fxvmahfs (vrt : VReg) (vra : VReg) (vrb : VReg) (c : Cond) : FixedBits.Statement (.fxvmahfs vrt vra vrb c) := fixedBits_of_wellFormed

theorem FixedBits.fxvmabfs (vrt : VReg) (vra : VReg) (vrb : VReg) (c : Cond) : FixedBits.Statement (.fxvmabfs vrt vra vrb c) := fixedBits_of_wellFormed

theorem FixedBits.fxvmtacbf (vra : VReg) (c : Cond) : FixedBits.Statement (.fxvmtacbf vra c) := fixedBits_of_wellFormed

theorem FixedBits.fxvmtachf (vra : VReg) (c : Cond) : FixedBits.Statement (.fxvmtachf vra c) := fixedBits_of_wellFormed

theorem FixedBits.fxvmatachm (vra : VReg) (vrb : VReg) (c : Cond) : FixedBits.Statement (.fxvmatachm vra vrb c) := fixedBits_of_wellFormed

theorem FixedBits.fxvmatacbm (vra : VReg) (vrb : VReg) (c : Cond) : FixedBits.Statement (.fxvmatacbm vra vrb c) := fixedBits_of_wellFormed

theorem FixedBits.fxvmatachfs (vra : VReg) (vrb : VReg) (c : Cond) : FixedBits.Statement (.fxvmatachfs vra vrb c) := fixedBits_of_wellFormed

theorem FixedBits.fxvmatacbfs (vra : VReg) (vrb : VReg) (c : Cond) : FixedBits.Statement (.fxvmatacbfs vra vrb c) := fixedBits_of_wellFormed

theorem FixedBits.fxvmulhm (vrt : VReg) (vra : VReg) (vrb : VReg) (c : Cond) : FixedBits.Statement (.fxvmulhm vrt vra vrb c) := fixedBits_of_wellFormed

theorem FixedBits.fxvmulbm (vrt : VReg) (vra : VReg) (vrb : VReg) (c : Cond) : FixedBits.Statement (.fxvmulbm vrt vra vrb c) := fixedBits_of_wellFormed

theorem FixedBits.fxvmulhfs (vrt : VReg) (vra : VReg) (vrb : VReg) (c : Cond) : FixedBits.Statement (.fxvmulhfs vrt vra vrb c) := fixedBits_of_wellFormed

theorem FixedBits.fxvmulbfs (vrt : VReg) (vra : VReg) (vrb : VReg) (c : Cond) : FixedBits.Statement (.fxvmulbfs vrt vra vrb c) := fixedBits_of_wellFormed

theorem FixedBits.fxvmultachm (vra : VReg) (vrb : VReg) (c : Cond) : FixedBits.Statement (.fxvmultachm vra vrb c) := fixedBits_of_wellFormed

theorem FixedBits.fxvmultacbm (vra : VReg) (vrb : VReg) (c : Cond) : FixedBits.Statement (.fxvmultacbm vra vrb c) := fixedBits_of_wellFormed

theorem FixedBits.fxvmultachfs (vra : VReg) (vrb : VReg) (c : Cond) : FixedBits.Statement (.fxvmultachfs vra vrb c) := fixedBits_of_wellFormed

theorem FixedBits.fxvmultacbfs (vra : VReg) (vrb : VReg) (c : Cond) : FixedBits.Statement (.fxvmultacbfs vra vrb c) := fixedBits_of_wellFormed

theorem FixedBits.fxvinx (vrt : VReg) (ra : GReg) (rb : GReg) : FixedBits.Statement (.fxvinx vrt ra rb) := fixedBits_of_wellFormed

theorem FixedBits.fxvpckbu (vrt : VReg) (vra : VReg) (vrb : VReg) (n : Nat) : FixedBits.Statement (.fxvpckbu vrt vra vrb n) := fixedBits_of_wellFormed

theorem FixedBits.fxvoutx (vrt : VReg) (ra : GReg) (rb : GReg) : FixedBits.Statement (.fxvoutx vrt ra rb) := fixedBits_of_wellFormed

theorem FixedBits.fxvpckbl (vrt : VReg) (vra : VReg) (vrb : VReg) (n : Nat) : FixedBits.Statement (.fxvpckbl vrt vra vrb n) := fixedBits_of_wellFormed

theorem FixedBits.fxvsplath (vrt : VReg) (ra : GReg) : FixedBits.Statement (.fxvsplath vrt ra) := fixedBits_of_wellFormed

theorem FixedBits.fxvsplatb (vrt : VReg) (ra : GReg) : FixedBits.Statement (.fxvsplatb vrt ra) := fixedBits_of_wellFormed

theorem FixedBits.fxvupckbr (vrt : VReg) (vra : VReg) (vrb : VReg) (n : Nat) : FixedBits.Statement (.fxvupckbr vrt vra vrb n) := fixedBits_of_wellFormed

theorem FixedBits.fxvupckbl (vrt : VReg) (vra : VReg) (vrb : VReg) (n : Nat) : FixedBits.Statement (.fxvupckbl vrt vra vrb n) := fixedBits_of_wellFormed

theorem FixedBits.fxvcmphm (vra : VReg) : FixedBits.Statement (.fxvcmphm vra) := fixedBits_of_wellFormed

theorem FixedBits.fxvcmpb (vra : VReg) : FixedBits.Statement (.fxvcmpb vra) := fixedBits_of_wellFormed

theorem FixedBits.fxvshh (vrt : VReg) (vra : VReg) (amount : Nat) : FixedBits.Statement (.fxvshh vrt vra amount) := fixedBits_of_wellFormed

theorem FixedBits.fxvshb (vrt : VReg) (vra : VReg) (amount : Nat) : FixedBits.Statement (.fxvshb vrt vra amount) := fixedBits_of_wellFormed

theorem FixedBits.fxvsel (vrt : VReg) (vra : VReg) (vrb : VReg) (c : Cond) : FixedBits.Statement (.fxvsel vrt vra vrb c) := fixedBits_of_wellFormed

theorem FixedBits.fxvsubhm (vrt : VReg) (vra : VReg) (vrb : VReg) (c : Cond) : FixedBits.Statement (.fxvsubhm vrt vra vrb c) := fixedBits_of_wellFormed

theorem FixedBits.fxvsubbm (vrt : VReg) (vra : VReg) (vrb : VReg) (c : Cond) : FixedBits.Statement (.fxvsubbm vrt vra vrb c) := fixedBits_of_wellFormed

theorem FixedBits.fxvsubhfs (vrt : VReg) (vra : VReg) (vrb : VReg) (c : Cond) : FixedBits.Statement (.fxvsubhfs vrt vra vrb c) := fixedBits_of_wellFormed

theorem FixedBits.fxvsubbfs (vrt : VReg) (vra : VReg) (vrb : VReg) (c : Cond) : FixedBits.Statement (.fxvsubbfs vrt vra vrb c) := fixedBits_of_wellFormed

theorem FixedBits.fxvaddactachm (vra : VReg) (c : Cond) : FixedBits.Statement (.fxvaddactachm vra c) := fixedBits_of_wellFormed

theorem FixedBits.fxvaddactacb (vra : VReg) (c : Cond) : FixedBits.Statement (.fxvaddactacb vra c) := fixedBits_of_wellFormed

theorem FixedBits.fxvaddactachf (vra : VReg) (c : Cond) : FixedBits.Statement (.fxvaddactachf vra c) := fixedBits_of_wellFormed

theorem FixedBits.fxvaddactacbf (vra : VReg) (c : Cond) : FixedBits.Statement (.fxvaddactacbf vra c) := fixedBits_of_wellFormed

theorem FixedBits.fxvaddachm (vrt : VReg) (vra : VReg) (c : Cond) : FixedBits.Statement (.fxvaddachm vrt vra c) := fixedBits_of_wellFormed

theorem FixedBits.fxvaddacbm (vrt : VReg) (vra : VReg) (c : Cond) : FixedBits.Statement (.fxvaddacbm vrt vra c) := fixedBits_of_wellFormed

theorem FixedBits.fxvaddachfs (vrt : VReg) (vra : VReg) (c : Cond) : FixedBits.Statement (.fxvaddachfs vrt vra c) := fixedBits_of_wellFormed

theorem FixedBits.fxvaddacbfs (vrt : VReg) (vra : VReg) (c : Cond) : FixedBits.Statement (.fxvaddacbfs vrt vra c) := fixedBits_of_wellFormed

theorem FixedBits.fxvaddtachm (vra : VReg) (vrb : VReg) (c : Cond) : FixedBits.Statement (.fxvaddtachm vra vrb c) := fixedBits_of_wellFormed

theorem FixedBits.fxvaddtacb (vra : VReg) (vrb : VReg) (c : Cond) : FixedBits.Statement (.fxvaddtacb vra vrb c) := fixedBits_of_wellFormed

theorem FixedBits.fxvaddhm (vrt : VReg) (vra : VReg) (vrb : VReg) (c : Cond) : FixedBits.Statement (.fxvaddhm vrt vra vrb c) := fixedBits_of_wellFormed

theorem FixedBits.fxvaddbm (vrt : VReg) (vra : VReg) (vrb : VReg) (c : Cond) : FixedBits.Statement (.fxvaddbm vrt vra vrb c) := fixedBits_of_wellFormed

theorem FixedBits.fxvaddhfs (vrt : VReg) (vra : VReg) (vrb : VReg) (c : Cond) : FixedBits.Statement (.fxvaddhfs vrt vra vrb c) := fixedBits_of_wellFormed

theorem FixedBits.fxvaddbfs (vrt : VReg) (vra : VReg) (vrb : VReg) (c : Cond) : FixedBits.Statement (.fxvaddbfs vrt vra vrb c) := fixedBits_of_wellFormed

theorem FixedBits.fxvlax (vrt : VReg) (ra : GReg) (rb : GReg) : FixedBits.Statement (.fxvlax vrt ra rb) := fixedBits_of_wellFormed

theorem FixedBits.fxvstax (vrt : VReg) (ra : GReg) (rb : GReg) : FixedBits.Statement (.fxvstax vrt ra rb) := fixedBits_of_wellFormed

end Sys2Proof.Laws
end

