-- ==== Sys2Proof/Tests/Slice0.lean ====
section
/-! SUPPORT. Tests: the words of the spec, ill-formed terms, the value vectors of 95_test_vectors.md, and for every statement with hypotheses a state and operands that meet them. -/

set_option Elab.async false

namespace Sys2Proof.Tests

open Sys2Proof.Machine

/-! ## Decoding. Words of 95_test_vectors.md T1; operands 1, 2, 3 and C = 1 (gt) where the instruction uses the field. -/

theorem test_decode_fxvmahm : decodeTableWord 32 0x10221831 = some (.fxvmahm 1 2 3 .gt) := by decide
theorem test_decode_fxvmabm : decodeTableWord 32 0x10221835 = some (.fxvmabm 1 2 3 .gt) := by decide
theorem test_decode_fxvmtacb : decodeTableWord 32 0x10020039 = some (.fxvmtacb 2 .gt) := by decide
theorem test_decode_fxvmtach : decodeTableWord 32 0x1002003D = some (.fxvmtach 2 .gt) := by decide
theorem test_decode_fxvmahfs : decodeTableWord 32 0x10221871 = some (.fxvmahfs 1 2 3 .gt) := by decide
theorem test_decode_fxvmabfs : decodeTableWord 32 0x10221875 = some (.fxvmabfs 1 2 3 .gt) := by decide
theorem test_decode_fxvmtacbf : decodeTableWord 32 0x10020079 = some (.fxvmtacbf 2 .gt) := by decide
theorem test_decode_fxvmtachf : decodeTableWord 32 0x1002007D = some (.fxvmtachf 2 .gt) := by decide
theorem test_decode_fxvmatachm : decodeTableWord 32 0x100218B1 = some (.fxvmatachm 2 3 .gt) := by decide
theorem test_decode_fxvmatacbm : decodeTableWord 32 0x100218B5 = some (.fxvmatacbm 2 3 .gt) := by decide
theorem test_decode_fxvmatachfs : decodeTableWord 32 0x100218F1 = some (.fxvmatachfs 2 3 .gt) := by decide
theorem test_decode_fxvmatacbfs : decodeTableWord 32 0x100218F5 = some (.fxvmatacbfs 2 3 .gt) := by decide
theorem test_decode_fxvmulhm : decodeTableWord 32 0x10221931 = some (.fxvmulhm 1 2 3 .gt) := by decide
theorem test_decode_fxvmulbm : decodeTableWord 32 0x10221935 = some (.fxvmulbm 1 2 3 .gt) := by decide
theorem test_decode_fxvmulhfs : decodeTableWord 32 0x10221971 = some (.fxvmulhfs 1 2 3 .gt) := by decide
theorem test_decode_fxvmulbfs : decodeTableWord 32 0x10221975 = some (.fxvmulbfs 1 2 3 .gt) := by decide
theorem test_decode_fxvmultachm : decodeTableWord 32 0x100219B1 = some (.fxvmultachm 2 3 .gt) := by decide
theorem test_decode_fxvmultacbm : decodeTableWord 32 0x100219B5 = some (.fxvmultacbm 2 3 .gt) := by decide
theorem test_decode_fxvmultachfs : decodeTableWord 32 0x100219F1 = some (.fxvmultachfs 2 3 .gt) := by decide
theorem test_decode_fxvmultacbfs : decodeTableWord 32 0x100219F5 = some (.fxvmultacbfs 2 3 .gt) := by decide
theorem test_decode_fxvinx : decodeTableWord 32 0x10221BB0 = some (.fxvinx 1 2 3) := by decide
theorem test_decode_fxvpckbu : decodeTableWord 32 0x10221BBD = some (.fxvpckbu 1 2 3 1) := by decide
theorem test_decode_fxvoutx : decodeTableWord 32 0x10221BF0 = some (.fxvoutx 1 2 3) := by decide
theorem test_decode_fxvpckbl : decodeTableWord 32 0x10221BFD = some (.fxvpckbl 1 2 3 1) := by decide
theorem test_decode_fxvsplath : decodeTableWord 32 0x10220430 = some (.fxvsplath 1 2) := by decide
theorem test_decode_fxvsplatb : decodeTableWord 32 0x10220434 = some (.fxvsplatb 1 2) := by decide
theorem test_decode_fxvupckbr : decodeTableWord 32 0x1020043C = some (.fxvupckbr 1 0 0 0) := by decide
theorem test_decode_fxvupckbl : decodeTableWord 32 0x1020047C = some (.fxvupckbl 1 0 0 0) := by decide
theorem test_decode_fxvcmphm : decodeTableWord 32 0x100204B0 = some (.fxvcmphm 2) := by decide
theorem test_decode_fxvcmpb : decodeTableWord 32 0x100204B4 = some (.fxvcmpb 2) := by decide
theorem test_decode_fxvshh : decodeTableWord 32 0x10221CF0 = some (.fxvshh 1 2 3) := by decide
theorem test_decode_fxvshb : decodeTableWord 32 0x10221CF4 = some (.fxvshb 1 2 3) := by decide
theorem test_decode_fxvsel : decodeTableWord 32 0x10221CFD = some (.fxvsel 1 2 3 .gt) := by decide
theorem test_decode_fxvsubhm : decodeTableWord 32 0x10221D31 = some (.fxvsubhm 1 2 3 .gt) := by decide
theorem test_decode_fxvsubbm : decodeTableWord 32 0x10221D35 = some (.fxvsubbm 1 2 3 .gt) := by decide
theorem test_decode_fxvsubhfs : decodeTableWord 32 0x10221D71 = some (.fxvsubhfs 1 2 3 .gt) := by decide
theorem test_decode_fxvsubbfs : decodeTableWord 32 0x10221D75 = some (.fxvsubbfs 1 2 3 .gt) := by decide
theorem test_decode_fxvaddactachm : decodeTableWord 32 0x100205B1 = some (.fxvaddactachm 2 .gt) := by decide
theorem test_decode_fxvaddactacb : decodeTableWord 32 0x100205B5 = some (.fxvaddactacb 2 .gt) := by decide
theorem test_decode_fxvaddactachf : decodeTableWord 32 0x100205F1 = some (.fxvaddactachf 2 .gt) := by decide
theorem test_decode_fxvaddactacbf : decodeTableWord 32 0x100205F5 = some (.fxvaddactacbf 2 .gt) := by decide
theorem test_decode_fxvaddachm : decodeTableWord 32 0x10220631 = some (.fxvaddachm 1 2 .gt) := by decide
theorem test_decode_fxvaddacbm : decodeTableWord 32 0x10220635 = some (.fxvaddacbm 1 2 .gt) := by decide
theorem test_decode_fxvaddachfs : decodeTableWord 32 0x10220671 = some (.fxvaddachfs 1 2 .gt) := by decide
theorem test_decode_fxvaddacbfs : decodeTableWord 32 0x10220675 = some (.fxvaddacbfs 1 2 .gt) := by decide
theorem test_decode_fxvaddtachm : decodeTableWord 32 0x10021EB1 = some (.fxvaddtachm 2 3 .gt) := by decide
theorem test_decode_fxvaddtacb : decodeTableWord 32 0x10021EB5 = some (.fxvaddtacb 2 3 .gt) := by decide
theorem test_decode_fxvaddhm : decodeTableWord 32 0x10221F31 = some (.fxvaddhm 1 2 3 .gt) := by decide
theorem test_decode_fxvaddbm : decodeTableWord 32 0x10221F35 = some (.fxvaddbm 1 2 3 .gt) := by decide
theorem test_decode_fxvaddhfs : decodeTableWord 32 0x10221F71 = some (.fxvaddhfs 1 2 3 .gt) := by decide
theorem test_decode_fxvaddbfs : decodeTableWord 32 0x10221F75 = some (.fxvaddbfs 1 2 3 .gt) := by decide
theorem test_decode_fxvlax : decodeTableWord 32 0x10221FB0 = some (.fxvlax 1 2 3) := by decide
theorem test_decode_fxvstax : decodeTableWord 32 0x10221FF0 = some (.fxvstax 1 2 3) := by decide

/-! The same, one word of each family written out field by field from 30_encoding.md R91: OPCD, VRT, VRA, VRB, XO, C. -/

theorem test_bits_modulo_halfword : decodeTableWord 32 0b000100_11111_00001_10000_000001100_10 = some (.fxvmahm 31 1 16 .lt) := by decide
theorem test_bits_modulo_byte : decodeTableWord 32 0b000100_00000_10101_00000_101101101_11 = some (.fxvaddactacb 21 .eq) := by decide
theorem test_bits_satfract_halfword : decodeTableWord 32 0b000100_00111_01000_11110_101011100_00 = some (.fxvsubhfs 7 8 30 .always) := by decide
theorem test_bits_satfract_byte : decodeTableWord 32 0b000100_00000_00100_10010_001111101_01 = some (.fxvmultacbfs 4 18 .gt) := by decide
theorem test_bits_permute : decodeTableWord 32 0b000100_01010_00011_11111_100111100_00 = some (.fxvshh 10 3 31) := by decide
theorem test_bits_pack : decodeTableWord 32 0b000100_01010_00011_11111_011101111_10 = some (.fxvpckbu 10 3 31 2) := by decide
theorem test_bits_load_store : decodeTableWord 32 0b000100_10001_00000_01001_111111100_00 = some (.fxvstax 17 0 9) := by decide

/-- Unused fields are ignored (30_encoding.md R98, decoding checks of T1). -/
theorem test_decode_unused_fields : decodeTableWord 32 0x13FFFFF3 = some (.fxvstax 31 31 31) ∧ decodeTableWord 32 0x13FFFCB3 = some (.fxvcmphm 31) := by decide

/-- XO 0 is unassigned, and 0x7C0004B0 has another primary opcode (30_encoding.md R99). -/
theorem test_decode_refused : decodeWord 0x10000000 = .error .unassignedXo ∧ decodeWord 0x7C0004B0 = .error .notFxv ∧ decode [0x10, 0x22] = .error .tooShort := by
  decide

/-- The opcode map has 53 rows and no XO twice (30_encoding.md R96). -/
theorem test_opcode_map : opTable.length = 53 ∧ (opTable.map OpRow.xo).Pairwise (· < ·) := by decide

/-! ## Ill-formed terms: each check of `Instr.wellFormed` refuses one and passes its neighbour. -/

theorem test_wellFormed_shh : (Instr.fxvshh 1 2 32).wellFormed = false ∧ (Instr.fxvshh 1 2 31).wellFormed = true := by decide
theorem test_wellFormed_shb : (Instr.fxvshb 1 2 32).wellFormed = false ∧ (Instr.fxvshb 1 2 31).wellFormed = true := by decide
theorem test_wellFormed_pckbu : (Instr.fxvpckbu 1 2 3 4).wellFormed = false ∧ (Instr.fxvpckbu 1 2 3 3).wellFormed = true := by decide
theorem test_wellFormed_pckbl : (Instr.fxvpckbl 1 2 3 4).wellFormed = false ∧ (Instr.fxvpckbl 1 2 3 3).wellFormed = true := by decide
theorem test_wellFormed_upckbl : (Instr.fxvupckbl 1 2 3 4).wellFormed = false ∧ (Instr.fxvupckbl 1 2 3 3).wellFormed = true := by decide
theorem test_wellFormed_upckbr : (Instr.fxvupckbr 1 2 3 4).wellFormed = false ∧ (Instr.fxvupckbr 1 2 3 3).wellFormed = true := by decide

/-! ## Values: one step each, the word fetched, decoded and run. -/

/-- A register with this halfword in every element. -/
def halves (x : Half) : VecBits := ofHalves fun _ => x

/-- A register with this byte in every element. -/
def bytes (x : Byte) : VecBits := ofBytes fun _ => x

/-- An accumulator with this word in every element. -/
def accWords (x : Word) : AccBits := ofAccWords fun _ => x

/-- An accumulator with this halfword in every element. -/
def accHalves (x : Half) : AccBits := ofAccHalves fun _ => x

/-- The reset state with VR[1], VR[2], VR[3], the accumulator and the VCR of its one slice set. -/
def stateWith (v1 v2 v3 : VecBits) (acc : AccBits) (vcr : VcrBits) : State :=
  State.reset.mapSlices fun _ sl => ((((sl.setReg 1 v1).setReg 2 v2).setReg 3 v3).setAcc acc).setVcr vcr

/-- VR[1] and the accumulator of slice 0 after one step that runs the word `w`, which moves pc by 4. -/
def outcome (w : Nat) (s : State) : Option (VecBits × AccBits) :=
  match step (s.withFetchWord 32 w) with
  | .next t => if t.pc = s.pc + 4 then t.slices.head?.map fun sl => (sl.reg 1, sl.acc) else none
  | _ => none

/-- VR[r] of every slice after one step that runs the word `w`. -/
def regAfter (w : Nat) (r : VReg) (s : State) : Option (List VecBits) :=
  match step (s.withFetchWord 32 w) with
  | .next t => some (t.slices.map fun sl => sl.reg r)
  | _ => none

/-- The VCR of every slice after one step that runs the word `w`. -/
def vcrAfter (w : Nat) (s : State) : Option (List VcrBits) :=
  match step (s.withFetchWord 32 w) with
  | .next t => some (t.slices.map fun sl => sl.vcr)
  | _ => none

/-- The fault a step that fetches the word `w` ends in. -/
def faultOf (w : Nat) (s : State) : Option Fault :=
  match step (s.withFetchWord 32 w) with
  | .fault f => some f
  | _ => none

/-- The refusal a step that fetches the word `w` ends in. -/
def refusalOf (w : Nat) (s : State) : Option Refusal :=
  match step (s.withFetchWord 32 w) with
  | .refused r => some r
  | _ => none

/-- The VCR that fxvcmphm leaves in vector (a) of 95_test_vectors.md T6, its fields in the order of 10_state.md R36. -/
def vcrOfHalves : VcrBits := 0x0F000FF0000F0F00F000FF00

/-- The VCR that fxvcmpb leaves in vector (c) of 95_test_vectors.md T6. -/
def vcrOfBytes : VcrBits := 0x0C3F0000F3C00F000FC30C03

/-- The reset state with x[r] set. -/
def setX (s : State) (r : GReg) (v : Word) : State := { s with gpr := s.gpr.set r v }

/-- 95_test_vectors.md T2, `fxvmahm 1, 2, 3, 0`: low half of 0x40000000. -/
theorem test_fxvmahm_1 : outcome 0x10221830 (stateWith (halves 0x3C3C) (halves 0x8000) (halves 0x8000) (accWords 0x00000000) 0) = some (halves 0x0000, accWords 0x00000000) := by
  decide +kernel

/-- 95_test_vectors.md T2, `fxvmahm 1, 2, 3, 0`: -2 + 0x10003, low half; ACC not written. -/
theorem test_fxvmahm_2 : outcome 0x10221830 (stateWith (halves 0x3C3C) (halves 0xFFFF) (halves 0x0002) (accWords 0x00010003) 0) = some (halves 0x0001, accWords 0x00010003) := by
  decide +kernel

/-- 95_test_vectors.md T2, `fxvmatachm 0, 2, 3, 0`: sum wraps at 32 bit. -/
theorem test_fxvmatachm_1 : outcome 0x100218B0 (stateWith (halves 0x3C3C) (halves 0x7FFF) (halves 0x7FFF) (accWords 0x7FFFFFFF) 0) = some (halves 0x3C3C, accWords 0xBFFF0000) := by
  decide +kernel

/-- 95_test_vectors.md T2, `fxvmatachm 0, 2, 3, 0`: D7: signed product -2 (unsigned reading 0x0001FFFE). -/
theorem test_fxvmatachm_2 : outcome 0x100218B0 (stateWith (halves 0x3C3C) (halves 0xFFFF) (halves 0x0002) (accWords 0x00000000) 0) = some (halves 0x3C3C, accWords 0xFFFFFFFE) := by
  decide +kernel

/-- 95_test_vectors.md T2, `fxvmulhm 1, 2, 3, 0`. -/
theorem test_fxvmulhm_1 : outcome 0x10221930 (stateWith (halves 0x3C3C) (halves 0x0003) (halves 0x0005) (accWords 0x5A5A5A5A) 0) = some (halves 0x000F, accWords 0x5A5A5A5A) := by
  decide +kernel

/-- 95_test_vectors.md T2, `fxvmulhm 1, 2, 3, 0`. -/
theorem test_fxvmulhm_2 : outcome 0x10221930 (stateWith (halves 0x3C3C) (halves 0x8000) (halves 0x8000) (accWords 0x5A5A5A5A) 0) = some (halves 0x0000, accWords 0x5A5A5A5A) := by
  decide +kernel

/-- 95_test_vectors.md T2, `fxvmultachm 0, 2, 3, 0`: old ACC not read. -/
theorem test_fxvmultachm_1 : outcome 0x100219B0 (stateWith (halves 0x3C3C) (halves 0x7FFF) (halves 0x7FFF) (accWords 0x5A5A5A5A) 0) = some (halves 0x3C3C, accWords 0x3FFF0001) := by
  decide +kernel

/-- 95_test_vectors.md T2, `fxvmultachm 0, 2, 3, 0`: D7. -/
theorem test_fxvmultachm_2 : outcome 0x100219B0 (stateWith (halves 0x3C3C) (halves 0xFFFF) (halves 0x0002) (accWords 0x5A5A5A5A) 0) = some (halves 0x3C3C, accWords 0xFFFFFFFE) := by
  decide +kernel

/-- 95_test_vectors.md T2, `fxvsubhm 1, 2, 3, 0`: VRA minus VRB. -/
theorem test_fxvsubhm_1 : outcome 0x10221D30 (stateWith (halves 0x3C3C) (halves 0x0005) (halves 0x0007) (accWords 0x5A5A5A5A) 0) = some (halves 0xFFFE, accWords 0x5A5A5A5A) := by
  decide +kernel

/-- 95_test_vectors.md T2, `fxvsubhm 1, 2, 3, 0`: wraps. -/
theorem test_fxvsubhm_2 : outcome 0x10221D30 (stateWith (halves 0x3C3C) (halves 0x8000) (halves 0x0001) (accWords 0x5A5A5A5A) 0) = some (halves 0x7FFF, accWords 0x5A5A5A5A) := by
  decide +kernel

/-- 95_test_vectors.md T2, `fxvaddactachm 0, 2, 0, 0`: wraps at 32 bit. -/
theorem test_fxvaddactachm_1 : outcome 0x100205B0 (stateWith (halves 0x3C3C) (halves 0x0001) (halves 0) (accWords 0xFFFFFFFF) 0) = some (halves 0x3C3C, accWords 0x00000000) := by
  decide +kernel

/-- 95_test_vectors.md T2, `fxvaddactachm 0, 2, 0, 0`: element sign-extended. -/
theorem test_fxvaddactachm_2 : outcome 0x100205B0 (stateWith (halves 0x3C3C) (halves 0x8000) (halves 0) (accWords 0x80000000) 0) = some (halves 0x3C3C, accWords 0x7FFF8000) := by
  decide +kernel

/-- 95_test_vectors.md T2, `fxvaddtachm 0, 2, 3, 0`. -/
theorem test_fxvaddtachm_1 : outcome 0x10021EB0 (stateWith (halves 0x3C3C) (halves 0xFFFF) (halves 0xFFFF) (accWords 0x5A5A5A5A) 0) = some (halves 0x3C3C, accWords 0xFFFFFFFE) := by
  decide +kernel

/-- 95_test_vectors.md T2, `fxvaddtachm 0, 2, 3, 0`. -/
theorem test_fxvaddtachm_2 : outcome 0x10021EB0 (stateWith (halves 0x3C3C) (halves 0x8000) (halves 0x8000) (accWords 0x5A5A5A5A) 0) = some (halves 0x3C3C, accWords 0xFFFF0000) := by
  decide +kernel

/-- 95_test_vectors.md T2, `fxvaddachm 1, 2, 0, 0`. -/
theorem test_fxvaddachm_1 : outcome 0x10220630 (stateWith (halves 0x3C3C) (halves 0xFFFF) (halves 0) (accWords 0x00000001) 0) = some (halves 0x0000, accWords 0x00000001) := by
  decide +kernel

/-- 95_test_vectors.md T2, `fxvaddachm 1, 2, 0, 0`: reads back the low half of ACC. -/
theorem test_fxvaddachm_2 : outcome 0x10220630 (stateWith (halves 0x3C3C) (halves 0x0000) (halves 0) (accWords 0x12345678) 0) = some (halves 0x5678, accWords 0x12345678) := by
  decide +kernel

/-- 95_test_vectors.md T2, `fxvaddhm 1, 2, 3, 0`: wraps. -/
theorem test_fxvaddhm_2 : outcome 0x10221F30 (stateWith (halves 0x3C3C) (halves 0x7FFF) (halves 0x0001) (accWords 0x5A5A5A5A) 0) = some (halves 0x8000, accWords 0x5A5A5A5A) := by
  decide +kernel

/-- 95_test_vectors.md T2, `fxvmtach 0, 2, 0, 0`: D8 (zero extension: 0x00008001). -/
theorem test_fxvmtach_1 : outcome 0x1002003C (stateWith (halves 0x3C3C) (halves 0x8001) (halves 0) (accWords 0x5A5A5A5A) 0) = some (halves 0x3C3C, accWords 0xFFFF8001) := by
  decide +kernel

/-- 95_test_vectors.md T2, `fxvmtach 0, 2, 0, 0`. -/
theorem test_fxvmtach_2 : outcome 0x1002003C (stateWith (halves 0x3C3C) (halves 0x7FFF) (halves 0) (accWords 0x5A5A5A5A) 0) = some (halves 0x3C3C, accWords 0x00007FFF) := by
  decide +kernel

/-- 95_test_vectors.md T3, `fxvmabm 1, 2, 3, 0`. -/
theorem test_fxvmabm_1 : outcome 0x10221834 (stateWith (bytes 0x3C) (bytes 0x03) (bytes 0x05) (accHalves 0x000A) 0) = some (bytes 0x19, accHalves 0x000A) := by
  decide +kernel

/-- 95_test_vectors.md T3, `fxvmabm 1, 2, 3, 0`: 0x3F01 + 0xFFFF, low byte. -/
theorem test_fxvmabm_2 : outcome 0x10221834 (stateWith (bytes 0x3C) (bytes 0x7F) (bytes 0x7F) (accHalves 0xFFFF) 0) = some (bytes 0x00, accHalves 0xFFFF) := by
  decide +kernel

/-- 95_test_vectors.md T3, `fxvmatacbm 0, 2, 3, 0`: wraps at 16 bit. -/
theorem test_fxvmatacbm_1 : outcome 0x100218B4 (stateWith (bytes 0x3C) (bytes 0x7F) (bytes 0x7F) (accHalves 0x7FFF) 0) = some (bytes 0x3C, accHalves 0xBF00) := by
  decide +kernel

/-- 95_test_vectors.md T3, `fxvmatacbm 0, 2, 3, 0`: D7: signed product (unsigned reading 0x01FE). -/
theorem test_fxvmatacbm_2 : outcome 0x100218B4 (stateWith (bytes 0x3C) (bytes 0xFF) (bytes 0x02) (accHalves 0x0000) 0) = some (bytes 0x3C, accHalves 0xFFFE) := by
  decide +kernel

/-- 95_test_vectors.md T3, `fxvmulbm 1, 2, 3, 0`. -/
theorem test_fxvmulbm_1 : outcome 0x10221934 (stateWith (bytes 0x3C) (bytes 0x03) (bytes 0x05) (accHalves 0x5A5A) 0) = some (bytes 0x0F, accHalves 0x5A5A) := by
  decide +kernel

/-- 95_test_vectors.md T3, `fxvmulbm 1, 2, 3, 0`: 0x100 mod 2^8. -/
theorem test_fxvmulbm_2 : outcome 0x10221934 (stateWith (bytes 0x3C) (bytes 0x10) (bytes 0x10) (accHalves 0x5A5A) 0) = some (bytes 0x00, accHalves 0x5A5A) := by
  decide +kernel

/-- 95_test_vectors.md T3, `fxvmultacbm 0, 2, 3, 0`. -/
theorem test_fxvmultacbm_1 : outcome 0x100219B4 (stateWith (bytes 0x3C) (bytes 0x10) (bytes 0x10) (accHalves 0x5A5A) 0) = some (bytes 0x3C, accHalves 0x0100) := by
  decide +kernel

/-- 95_test_vectors.md T3, `fxvmultacbm 0, 2, 3, 0`: D7. -/
theorem test_fxvmultacbm_2 : outcome 0x100219B4 (stateWith (bytes 0x3C) (bytes 0xFF) (bytes 0x02) (accHalves 0x5A5A) 0) = some (bytes 0x3C, accHalves 0xFFFE) := by
  decide +kernel

/-- 95_test_vectors.md T3, `fxvsubbm 1, 2, 3, 0`. -/
theorem test_fxvsubbm_1 : outcome 0x10221D34 (stateWith (bytes 0x3C) (bytes 0x05) (bytes 0x07) (accHalves 0x5A5A) 0) = some (bytes 0xFE, accHalves 0x5A5A) := by
  decide +kernel

/-- 95_test_vectors.md T3, `fxvsubbm 1, 2, 3, 0`: wraps. -/
theorem test_fxvsubbm_2 : outcome 0x10221D34 (stateWith (bytes 0x3C) (bytes 0x80) (bytes 0x01) (accHalves 0x5A5A) 0) = some (bytes 0x7F, accHalves 0x5A5A) := by
  decide +kernel

/-- 95_test_vectors.md T3, `fxvaddactacb 0, 2, 0, 0`. -/
theorem test_fxvaddactacb_1 : outcome 0x100205B4 (stateWith (bytes 0x3C) (bytes 0x01) (bytes 0) (accHalves 0xFFFF) 0) = some (bytes 0x3C, accHalves 0x0000) := by
  decide +kernel

/-- 95_test_vectors.md T3, `fxvaddactacb 0, 2, 0, 0`. -/
theorem test_fxvaddactacb_2 : outcome 0x100205B4 (stateWith (bytes 0x3C) (bytes 0x7F) (bytes 0) (accHalves 0x7FFF) 0) = some (bytes 0x3C, accHalves 0x807E) := by
  decide +kernel

/-- 95_test_vectors.md T3, `fxvaddtacb 0, 2, 3, 0`. -/
theorem test_fxvaddtacb_1 : outcome 0x10021EB4 (stateWith (bytes 0x3C) (bytes 0xFF) (bytes 0xFF) (accHalves 0x5A5A) 0) = some (bytes 0x3C, accHalves 0xFFFE) := by
  decide +kernel

/-- 95_test_vectors.md T3, `fxvaddtacb 0, 2, 3, 0`. -/
theorem test_fxvaddtacb_2 : outcome 0x10021EB4 (stateWith (bytes 0x3C) (bytes 0x80) (bytes 0x80) (accHalves 0x5A5A) 0) = some (bytes 0x3C, accHalves 0xFF00) := by
  decide +kernel

/-- 95_test_vectors.md T3, `fxvaddacbm 1, 2, 0, 0`. -/
theorem test_fxvaddacbm_1 : outcome 0x10220634 (stateWith (bytes 0x3C) (bytes 0xFF) (bytes 0) (accHalves 0x0001) 0) = some (bytes 0x00, accHalves 0x0001) := by
  decide +kernel

/-- 95_test_vectors.md T3, `fxvaddacbm 1, 2, 0, 0`. -/
theorem test_fxvaddacbm_2 : outcome 0x10220634 (stateWith (bytes 0x3C) (bytes 0x80) (bytes 0) (accHalves 0x8000) 0) = some (bytes 0x80, accHalves 0x8000) := by
  decide +kernel

/-- 95_test_vectors.md T3, `fxvaddbm 1, 2, 3, 0`: no carry into the neighbouring byte. -/
theorem test_fxvaddbm_2 : outcome 0x10221F34 (stateWith (bytes 0x3C) (bytes 0xFF) (bytes 0xFF) (accHalves 0x5A5A) 0) = some (bytes 0xFE, accHalves 0x5A5A) := by
  decide +kernel

/-- 95_test_vectors.md T3, `fxvmtacb 0, 2, 0, 0`: D8 (zero extension: 0x0081). -/
theorem test_fxvmtacb_1 : outcome 0x10020038 (stateWith (bytes 0x3C) (bytes 0x81) (bytes 0) (accHalves 0x5A5A) 0) = some (bytes 0x3C, accHalves 0xFF81) := by
  decide +kernel

/-- 95_test_vectors.md T4, `fxvmahfs 1, 2, 3, 0`: sum clamps to 0x7FFFFFFF. -/
theorem test_fxvmahfs_1 : outcome 0x10221870 (stateWith (halves 0x3C3C) (halves 0x8000) (halves 0x8000) (accWords 0x00000001) 0) = some (halves 0x7FFF, accWords 0x00000001) := by
  decide +kernel

/-- 95_test_vectors.md T4, `fxvmahfs 1, 2, 3, 0`: W = 0x80010000, sum clamps to 0x80000000. -/
theorem test_fxvmahfs_2 : outcome 0x10221870 (stateWith (halves 0x3C3C) (halves 0x8000) (halves 0x7FFF) (accWords 0x80000000) 0) = some (halves 0x8000, accWords 0x80000000) := by
  decide +kernel

/-- 95_test_vectors.md T4, `fxvmtachf 0, 2, 0, 0`: aligned to the left. -/
theorem test_fxvmtachf_1 : outcome 0x1002007C (stateWith (halves 0x3C3C) (halves 0x8001) (halves 0) (accWords 0x5A5A5A5A) 0) = some (halves 0x3C3C, accWords 0x80010000) := by
  decide +kernel

/-- 95_test_vectors.md T4, `fxvmatachfs 0, 2, 3, 0`: W = 0x7FFE0002, clamps. -/
theorem test_fxvmatachfs_1 : outcome 0x100218F0 (stateWith (halves 0x3C3C) (halves 0x7FFF) (halves 0x7FFF) (accWords 0x40000000) 0) = some (halves 0x3C3C, accWords 0x7FFFFFFF) := by
  decide +kernel

/-- 95_test_vectors.md T4, `fxvmatachfs 0, 2, 3, 0`: clamps. -/
theorem test_fxvmatachfs_2 : outcome 0x100218F0 (stateWith (halves 0x3C3C) (halves 0x2000) (halves 0x4000) (accWords 0x7FFF0000) 0) = some (halves 0x3C3C, accWords 0x7FFFFFFF) := by
  decide +kernel

/-- 95_test_vectors.md T4, `fxvmulhfs 1, 2, 3, 0`: 0.25 * 0.5. -/
theorem test_fxvmulhfs_1 : outcome 0x10221970 (stateWith (halves 0x3C3C) (halves 0x2000) (halves 0x4000) (accWords 0x5A5A5A5A) 0) = some (halves 0x1000, accWords 0x5A5A5A5A) := by
  decide +kernel

/-- 95_test_vectors.md T4, `fxvmulhfs 1, 2, 3, 0`: -1 * -1 clamps. -/
theorem test_fxvmulhfs_2 : outcome 0x10221970 (stateWith (halves 0x3C3C) (halves 0x8000) (halves 0x8000) (accWords 0x5A5A5A5A) 0) = some (halves 0x7FFF, accWords 0x5A5A5A5A) := by
  decide +kernel

/-- 95_test_vectors.md T4, `fxvmultachfs 0, 2, 3, 0`. -/
theorem test_fxvmultachfs_1 : outcome 0x100219F0 (stateWith (halves 0x3C3C) (halves 0x4000) (halves 0x4000) (accWords 0x5A5A5A5A) 0) = some (halves 0x3C3C, accWords 0x20000000) := by
  decide +kernel

/-- 95_test_vectors.md T4, `fxvmultachfs 0, 2, 3, 0`. -/
theorem test_fxvmultachfs_2 : outcome 0x100219F0 (stateWith (halves 0x3C3C) (halves 0x8000) (halves 0x8000) (accWords 0x5A5A5A5A) 0) = some (halves 0x3C3C, accWords 0x7FFFFFFF) := by
  decide +kernel

/-- 95_test_vectors.md T4, `fxvsubhfs 1, 2, 3, 0`: D9; clamps (fxvsubhm: 0x7FFF). -/
theorem test_fxvsubhfs_1 : outcome 0x10221D70 (stateWith (halves 0x3C3C) (halves 0x8000) (halves 0x0001) (accWords 0x5A5A5A5A) 0) = some (halves 0x8000, accWords 0x5A5A5A5A) := by
  decide +kernel

/-- 95_test_vectors.md T4, `fxvsubhfs 1, 2, 3, 0`: D9; clamps (fxvsubhm: 0x8000). -/
theorem test_fxvsubhfs_2 : outcome 0x10221D70 (stateWith (halves 0x3C3C) (halves 0x7FFF) (halves 0xFFFF) (accWords 0x5A5A5A5A) 0) = some (halves 0x7FFF, accWords 0x5A5A5A5A) := by
  decide +kernel

/-- 95_test_vectors.md T4, `fxvaddactachf 0, 2, 0, 0`: D9; clamps. -/
theorem test_fxvaddactachf_1 : outcome 0x100205F0 (stateWith (halves 0x3C3C) (halves 0x7FFF) (halves 0) (accWords 0x00010000) 0) = some (halves 0x3C3C, accWords 0x7FFFFFFF) := by
  decide +kernel

/-- 95_test_vectors.md T4, `fxvaddactachf 0, 2, 0, 0`: D9 (right: 0x00008001). -/
theorem test_fxvaddactachf_2 : outcome 0x100205F0 (stateWith (halves 0x3C3C) (halves 0x0001) (halves 0) (accWords 0x00008000) 0) = some (halves 0x3C3C, accWords 0x00018000) := by
  decide +kernel

/-- 95_test_vectors.md T4, `fxvaddachfs 1, 2, 0, 0`: D9 (right: 0x0000). -/
theorem test_fxvaddachfs_1 : outcome 0x10220670 (stateWith (halves 0x3C3C) (halves 0x0001) (halves 0) (accWords 0x00008000) 0) = some (halves 0x0001, accWords 0x00008000) := by
  decide +kernel

/-- 95_test_vectors.md T4, `fxvaddachfs 1, 2, 0, 0`: D9; clamps. -/
theorem test_fxvaddachfs_2 : outcome 0x10220670 (stateWith (halves 0x3C3C) (halves 0x7FFF) (halves 0) (accWords 0x7FFF0000) 0) = some (halves 0x7FFF, accWords 0x7FFF0000) := by
  decide +kernel

/-- 95_test_vectors.md T4, `fxvaddhfs 1, 2, 3, 0`: D9; clamps (fxvaddhm: 0x8000). -/
theorem test_fxvaddhfs_1 : outcome 0x10221F70 (stateWith (halves 0x3C3C) (halves 0x7FFF) (halves 0x0001) (accWords 0x5A5A5A5A) 0) = some (halves 0x7FFF, accWords 0x5A5A5A5A) := by
  decide +kernel

/-- 95_test_vectors.md T4, `fxvaddhfs 1, 2, 3, 0`: D9; clamps (fxvaddhm: 0x7FFF). -/
theorem test_fxvaddhfs_2 : outcome 0x10221F70 (stateWith (halves 0x3C3C) (halves 0x8000) (halves 0xFFFF) (accWords 0x5A5A5A5A) 0) = some (halves 0x8000, accWords 0x5A5A5A5A) := by
  decide +kernel

/-- 95_test_vectors.md T5, `fxvmabfs 1, 2, 3, 0`: clamps. -/
theorem test_fxvmabfs_1 : outcome 0x10221874 (stateWith (bytes 0x3C) (bytes 0x80) (bytes 0x80) (accHalves 0x0001) 0) = some (bytes 0x7F, accHalves 0x0001) := by
  decide +kernel

/-- 95_test_vectors.md T5, `fxvmabfs 1, 2, 3, 0`: W = 0x8100, clamps. -/
theorem test_fxvmabfs_2 : outcome 0x10221874 (stateWith (bytes 0x3C) (bytes 0x80) (bytes 0x7F) (accHalves 0x8000) 0) = some (bytes 0x80, accHalves 0x8000) := by
  decide +kernel

/-- 95_test_vectors.md T5, `fxvmtacbf 0, 2, 0, 0`. -/
theorem test_fxvmtacbf_1 : outcome 0x10020078 (stateWith (bytes 0x3C) (bytes 0x81) (bytes 0) (accHalves 0x5A5A) 0) = some (bytes 0x3C, accHalves 0x8100) := by
  decide +kernel

/-- 95_test_vectors.md T5, `fxvmatacbfs 0, 2, 3, 0`: W = 0x7E02, clamps. -/
theorem test_fxvmatacbfs_1 : outcome 0x100218F4 (stateWith (bytes 0x3C) (bytes 0x7F) (bytes 0x7F) (accHalves 0x4000) 0) = some (bytes 0x3C, accHalves 0x7FFF) := by
  decide +kernel

/-- 95_test_vectors.md T5, `fxvmatacbfs 0, 2, 3, 0`: clamps. -/
theorem test_fxvmatacbfs_2 : outcome 0x100218F4 (stateWith (bytes 0x3C) (bytes 0x20) (bytes 0x40) (accHalves 0x7FFF) 0) = some (bytes 0x3C, accHalves 0x7FFF) := by
  decide +kernel

/-- 95_test_vectors.md T5, `fxvmulbfs 1, 2, 3, 0`. -/
theorem test_fxvmulbfs_1 : outcome 0x10221974 (stateWith (bytes 0x3C) (bytes 0x20) (bytes 0x40) (accHalves 0x5A5A) 0) = some (bytes 0x10, accHalves 0x5A5A) := by
  decide +kernel

/-- 95_test_vectors.md T5, `fxvmulbfs 1, 2, 3, 0`. -/
theorem test_fxvmulbfs_2 : outcome 0x10221974 (stateWith (bytes 0x3C) (bytes 0x80) (bytes 0x80) (accHalves 0x5A5A) 0) = some (bytes 0x7F, accHalves 0x5A5A) := by
  decide +kernel

/-- 95_test_vectors.md T5, `fxvmultacbfs 0, 2, 3, 0`. -/
theorem test_fxvmultacbfs_1 : outcome 0x100219F4 (stateWith (bytes 0x3C) (bytes 0x40) (bytes 0x40) (accHalves 0x5A5A) 0) = some (bytes 0x3C, accHalves 0x2000) := by
  decide +kernel

/-- 95_test_vectors.md T5, `fxvmultacbfs 0, 2, 3, 0`. -/
theorem test_fxvmultacbfs_2 : outcome 0x100219F4 (stateWith (bytes 0x3C) (bytes 0x80) (bytes 0x80) (accHalves 0x5A5A) 0) = some (bytes 0x3C, accHalves 0x7FFF) := by
  decide +kernel

/-- 95_test_vectors.md T5, `fxvsubbfs 1, 2, 3, 0`: D9; clamps. -/
theorem test_fxvsubbfs_1 : outcome 0x10221D74 (stateWith (bytes 0x3C) (bytes 0x80) (bytes 0x01) (accHalves 0x5A5A) 0) = some (bytes 0x80, accHalves 0x5A5A) := by
  decide +kernel

/-- 95_test_vectors.md T5, `fxvsubbfs 1, 2, 3, 0`: D9, D10 (wrap: 0x80). -/
theorem test_fxvsubbfs_2 : outcome 0x10221D74 (stateWith (bytes 0x3C) (bytes 0x00) (bytes 0x80) (accHalves 0x5A5A) 0) = some (bytes 0x7F, accHalves 0x5A5A) := by
  decide +kernel

/-- 95_test_vectors.md T5, `fxvaddactacbf 0, 2, 0, 0`: D9; clamps. -/
theorem test_fxvaddactacbf_1 : outcome 0x100205F4 (stateWith (bytes 0x3C) (bytes 0x7F) (bytes 0) (accHalves 0x7FFF) 0) = some (bytes 0x3C, accHalves 0x7FFF) := by
  decide +kernel

/-- 95_test_vectors.md T5, `fxvaddactacbf 0, 2, 0, 0`: D9 (right: 0x0081). -/
theorem test_fxvaddactacbf_2 : outcome 0x100205F4 (stateWith (bytes 0x3C) (bytes 0x01) (bytes 0) (accHalves 0x0080) 0) = some (bytes 0x3C, accHalves 0x0180) := by
  decide +kernel

/-- 95_test_vectors.md T5, `fxvaddacbfs 1, 2, 0, 0`: D9; clamps. -/
theorem test_fxvaddacbfs_1 : outcome 0x10220674 (stateWith (bytes 0x3C) (bytes 0x7F) (bytes 0) (accHalves 0x7FFF) 0) = some (bytes 0x7F, accHalves 0x7FFF) := by
  decide +kernel

/-- 95_test_vectors.md T5, `fxvaddacbfs 1, 2, 0, 0`: D9 (right: 0x00). -/
theorem test_fxvaddacbfs_2 : outcome 0x10220674 (stateWith (bytes 0x3C) (bytes 0x01) (bytes 0) (accHalves 0x0080) 0) = some (bytes 0x01, accHalves 0x0080) := by
  decide +kernel

/-- 95_test_vectors.md T5, `fxvaddbfs 1, 2, 3, 0`: D9. -/
theorem test_fxvaddbfs_1 : outcome 0x10221F74 (stateWith (bytes 0x3C) (bytes 0x05) (bytes 0x07) (accHalves 0x5A5A) 0) = some (bytes 0x0C, accHalves 0x5A5A) := by
  decide +kernel

/-- 95_test_vectors.md T5, `fxvaddbfs 1, 2, 3, 0`: D9; clamps. -/
theorem test_fxvaddbfs_2 : outcome 0x10221F74 (stateWith (bytes 0x3C) (bytes 0x7F) (bytes 0x01) (accHalves 0x5A5A) 0) = some (bytes 0x7F, accHalves 0x5A5A) := by
  decide +kernel

/-- 95_test_vectors.md T6 (b), C = 2 (lt): elements 1, 3 and 6 only. -/
theorem test_fxvaddhm_conditional : regAfter 0x10421F32 2 (stateWith 0 (halves 0x1111) (halves 0x0100) 0 vcrOfHalves) =
    some [0x11111211111112111111111112111111] := by
  decide +kernel

/-- 95_test_vectors.md T6 (d), C = 1 (gt). -/
theorem test_fxvaddbm_conditional : regAfter 0x10421F35 2 (stateWith 0 (bytes 0x10) (bytes 0x01) 0 vcrOfBytes) =
    some [0x11101010101011101111101010111010] := by
  decide +kernel

/-- 95_test_vectors.md T6 (a). -/
theorem test_fxvcmphm : vcrAfter 0x100104B0 (stateWith 0x0005FFFB000080007FFF0001FFFF0000 0 0 0 vcrOfBytes) = some [vcrOfHalves] := by
  decide +kernel

/-- The three areas of 95_test_vectors.md T6 (a): eq = 0x00F0000F, gt = 0xF000FF00, lt = 0x0F0F00F0, nibble 0 leftmost. -/
theorem test_vcr_layout : ∀ k < 32, vcrBit vcrOfHalves .eq k = (0x00F0000F : Word).getMsbD k ∧
    vcrBit vcrOfHalves .gt k = (0xF000FF00 : Word).getMsbD k ∧ vcrBit vcrOfHalves .lt k = (0x0F0F00F0 : Word).getMsbD k := by
  decide +kernel

/-- 95_test_vectors.md T6 (c). -/
theorem test_fxvcmpb : vcrAfter 0x100104B4 (stateWith 0x01FF000080807F000101FFFF000100FF 0 0 0 0) = some [vcrOfBytes] := by
  decide +kernel

/-- 95_test_vectors.md T6 (e): a halfword condition on a VCR that fxvcmpb wrote, with gaps as stops. -/
theorem test_mixed_condition_stops : faultOf 0x10421F31 { stateWith 0 0 0 0 vcrOfBytes with
    params := { Config.defaultParams with onGap := .stop } } = some .vcrMixed := by
  decide +kernel

/-- 95_test_vectors.md section 3: x[2] = 0x1234ABCD. -/
theorem test_fxvsplath : regAfter 0x10220430 1 (setX State.reset 2 0x1234ABCD) = some [halves 0xABCD] := by
  decide +kernel

/-- 95_test_vectors.md section 4: x[2] = 0x1234ABCD. -/
theorem test_fxvsplatb : regAfter 0x10220434 1 (setX State.reset 2 0x1234ABCD) = some [bytes 0xCD] := by
  decide +kernel

/-- 95_test_vectors.md T7 (a), C = 1 (gt). -/
theorem test_fxvsel_gt : regAfter 0x10821CFD 4 (stateWith 0 0xA0A1A2A3A4A5A6A7A8A9AAABACADAEAF 0xB0B1B2B3B4B5B6B7B8B9BABBBCBDBEBF 0 vcrOfBytes) =
    some [0xB0A1A2A3A4A5B6A7B8B9AAABACBDAEAF] := by
  decide +kernel

/-- 95_test_vectors.md T7 (a), C = 3 (eq). -/
theorem test_fxvsel_eq : regAfter 0x10821CFF 4 (stateWith 0 0xA0A1A2A3A4A5A6A7A8A9AAABACADAEAF 0xB0B1B2B3B4B5B6B7B8B9BABBBCBDBEBF 0 vcrOfBytes) =
    some [0xA0A1B2B3A4A5A6B7A8A9AAABBCADBEAF] := by
  decide +kernel

/-- 95_test_vectors.md T7 (b), amount 1. -/
theorem test_fxvshh_1 : regAfter 0x10220CF0 1 (stateWith 0 0x81230001FFFF400000FF123480000000 0 0 0) = some [0x02460002FFFE800001FE246800000000] := by
  decide +kernel

/-- 95_test_vectors.md T7 (b), amount 16. -/
theorem test_fxvshh_2 : regAfter 0x102284F0 1 (stateWith 0 0x81230001FFFF400000FF123480000000 0 0 0) = some [0] := by
  decide +kernel

/-- 95_test_vectors.md T7 (c), amount 1: no bit crosses into the neighbour. -/
theorem test_fxvshb_1 : regAfter 0x10220CF4 1 (stateWith 0 0x8101FF400F1280008101FF400F128000 0 0 0) = some [0x0202FE801E2400000202FE801E240000] := by
  decide +kernel

/-- 95_test_vectors.md T7 (c), amount 8. -/
theorem test_fxvshb_2 : regAfter 0x102244F4 1 (stateWith 0 0x8101FF400F1280008101FF400F128000 0 0 0) = some [0] := by
  decide +kernel

/-- The registers of 95_test_vectors.md T7 (d). -/
def packState : State := stateWith 0 0x1234F23400FFFF0080017FFFABCD0080 0x11112222333344445555666677778888 0 0

/-- 95_test_vectors.md T7 (d), C = 1. -/
theorem test_fxvpckbu_1 : regAfter 0x10221BBD 1 packState = some [0x0979007F403F5500081119222A333B44] := by
  decide +kernel

/-- 95_test_vectors.md T7 (d), the target is a source. -/
theorem test_fxvpckbu_2 : regAfter 0x10421BBC 2 packState = some [0x12F200FF807FAB001122334455667788] := by
  decide +kernel

/-- 95_test_vectors.md section 8, the last paragraph: C = 0, literal second half, PACK_MASK = 0xffff, the values of State.reset. -/
theorem test_fxvpckbl_1 : regAfter 0x10221BFC 1 packState =
    some [0x3434FF0001FFCD801122334455667788] := by
  decide +kernel

/-- 95_test_vectors.md T7 (e), with gaps as stops and PACK_MASK not fixed by evidence. -/
theorem test_fxvpckbl_2 : refusalOf 0x10221BFC { packState with params := { Config.defaultParams with packMask := .unsettled, onGap := .stop } } = some .packNotSettled := by
  decide +kernel

/-- 95_test_vectors.md T7 (f), with gaps as stops. -/
theorem test_fxvupckbl : refusalOf 0x10221C7C { packState with params := { Config.defaultParams with onGap := .stop } } = some .unpackNotDefined := by
  decide +kernel

/-- 95_test_vectors.md T7 (g), with gaps as stops. -/
theorem test_fxvupckbr : refusalOf 0x10221C3C { packState with params := { Config.defaultParams with onGap := .stop } } = some .unpackNotDefined := by
  decide +kernel

/-- Memory with the bytes 00 01 .. 1F from 0x1000 up. -/
def testMemory : Memory := (List.range 32).foldl (fun m k => m.write (0x1000 + k) (BitVec.ofNat 8 k)) []

/-- 95_test_vectors.md T8 (b) and (i): two slices, EA = x[5] + x[6] = 0x1000. -/
theorem test_fxvlax_1 : regAfter 0x104537B0 2 { setX (setX State.reset 5 0x00000FF0) 6 0x10 with
    mem := testMemory, slices := [Slice.reset, Slice.reset], params := { Config.defaultParams with memAlign := .bytes 32 } } =
    some [0x000102030405060708090A0B0C0D0E0F, 0x101112131415161718191A1B1C1D1E1F] := by
  decide +kernel

/-- 95_test_vectors.md T8 (d), (e), (f). -/
theorem test_fxvlax_2 : refusalOf 0x10203FB0 (setX State.reset 7 0x00001004) = some .misalignedVectorAccess ∧
    refusalOf 0x10203FB0 (setX State.reset 7 0xFFFFFFF8) = some .addressWrap ∧
    refusalOf 0x10203FB0 (setX { State.reset with platform := { ram := [Region.mk 0x1000 16, Region.mk 0x2000 32], io := [] } } 7 0x3000) = some .unmapped := by
  decide +kernel

/-- 95_test_vectors.md T8 (c): the bytes at 0x2010 and around them. -/
theorem test_fxvstax_1 :
    (match step ((setX (setX (stateWith 0 0 0xBEEF0102030405060708090A0B0C0D0E 0 0) 4 0x2000) 6 0x10).withFetchWord 32 0x106437F0) with
    | .next t => some ((List.range 20).map fun k => t.mem.read (0x200E + k))
    | _ => none) = some [0, 0, 0xBE, 0xEF, 1, 2, 3, 4, 5, 6, 7, 8, 9, 0x0A, 0x0B, 0x0C, 0x0D, 0x0E, 0, 0] := by
  decide +kernel

/-- 20_memory.md R72: a footprint that meets the program text at 0x100 is refused. -/
theorem test_fxvstax_2 : refusalOf 0x106437F0 (setX (setX State.reset 4 0xF0) 6 0x10) = some .storeToCode := by
  decide +kernel

/-- 95_test_vectors.md T8 (h): the write is one event of the log, with the 128 bits of VR[3]. -/
theorem test_fxvoutx :
    (match step ((setX (stateWith 0 0 0xBEEF010203040506 0 0) 12 0x40).withFetchWord 32 0x106063F0) with
    | .next t => some t.ioLog
    | _ => none) = some [.write 0x40 [0xBEEF010203040506]] := by
  decide +kernel

/-- 20_memory.md R69: an IO location that does not exist. -/
theorem test_fxvinx : refusalOf 0x10A063B0 (setX { State.reset with platform := { ram := [Region.all], io := [Region.mk 0x40 1] } } 12 0x41) = some .unmapped := by
  decide +kernel

/-- 30_encoding.md R98 under UNUSED_FIELDS = refuse_nonzero: a nonzero VRT of fxvcmphm, VRB of fxvmtach, C of fxvstax; nothing where every field is used. -/
theorem test_unused_refused :
    let s : State := { State.reset with params := { Config.defaultParams with unusedFields := .refuseNonzero } };
    refusalOf 0x102104B0 s = some .unusedFieldNonzero ∧ refusalOf 0x1002083C s = some .unusedFieldNonzero ∧
    refusalOf 0x106437F1 s = some .unusedFieldNonzero ∧ refusalOf 0x13FFFF33 s = none := by
  decide +kernel

/-- The end of the text, and pc + 4 passing 2^32 (70_reset_and_hazards.md R277, 10_state.md R41). -/
theorem test_ends : step State.reset = .refused .runEnded ∧
    refusalOf 0x10221F30 { State.reset with pc := 0xFFFFFFFC } = some .pcWrap :=
  ⟨rfl, by decide +kernel⟩

/-! ## Witnesses: for every statement with hypotheses, a concrete state and operands that meet them. -/

/-- A state with gaps as stops whose VCR has no mixed field and selects some elements and not others; pc is the last that fits. -/
def witness : State := { stateWith (halves 0x7FFF) (halves 0x8000) (halves 0x1234) (accWords 0x80000001) vcrOfHalves with
  pc := 0xFFFFFFF8, params := { Config.defaultParams with onGap := .stop } }

/-- A state with gaps as free values whose VCR has mixed fields. -/
def freeWitness : State := { stateWith (halves 0x7FFF) (halves 0x8000) (halves 0x1234) (accWords 0x80000001) vcrOfBytes with pc := 0xFFFFFFF8 }

/-- Whether an outcome is a next state. -/
def completes (r : Result) : Bool :=
  match r with
  | .next _ => true
  | _ => false

theorem exists_of_completes {r : Result} (h : completes r = true) : ∃ t, r = .next t := by
  cases r with
  | next t => exact ⟨t, rfl⟩
  | fault => cases h
  | refused => cases h

/-- The hypotheses of the halfword-conditional statements, for every condition, met without appeal to the free value. -/
theorem witness_half : PcFits witness ∧ ∀ c, HalfConditionReadable witness c :=
  ⟨by unfold PcFits; decide +kernel, fun c => condHStops_eq_false_iff.1 (by cases c <;> decide +kernel)⟩

/-- The hypotheses of the halfword-conditional statements on mixed fields: where gaps run free, where VCR_HW_READ says what is read, and for C = 0. -/
theorem witness_half_free : PcFits freeWitness ∧ (∀ c, HalfConditionReadable freeWitness c) ∧
    HalfConditionReadable { freeWitness with params := { Config.defaultParams with onGap := .stop, vcrHwRead := .allBits } } .gt ∧
    HalfConditionReadable { freeWitness with params := { Config.defaultParams with onGap := .stop } } .always :=
  ⟨by unfold PcFits; decide +kernel, fun _ => .inl rfl, .inr (.inl (by decide)), condHStops_eq_false_iff.1 (by decide +kernel)⟩

theorem test_witness_MultiplyAccumulateModuloResult : PcFits witness ∧ HalfConditionReadable witness .gt := ⟨witness_half.1, witness_half.2 .gt⟩
theorem test_witness_MultiplyAccumulateToAccModuloResult : PcFits witness ∧ HalfConditionReadable witness .gt := ⟨witness_half.1, witness_half.2 .gt⟩
theorem test_witness_MultiplyModuloResult : PcFits witness ∧ HalfConditionReadable witness .gt := ⟨witness_half.1, witness_half.2 .gt⟩
theorem test_witness_MultiplyToAccModuloResult : PcFits witness ∧ HalfConditionReadable witness .gt := ⟨witness_half.1, witness_half.2 .gt⟩
theorem test_witness_SubtractModuloResult : PcFits witness ∧ HalfConditionReadable witness .gt := ⟨witness_half.1, witness_half.2 .gt⟩
theorem test_witness_AddAccToAccModuloResult : PcFits witness ∧ HalfConditionReadable witness .gt := ⟨witness_half.1, witness_half.2 .gt⟩
theorem test_witness_AddToAccModuloResult : PcFits witness ∧ HalfConditionReadable witness .gt := ⟨witness_half.1, witness_half.2 .gt⟩
theorem test_witness_AddAccModuloResult : PcFits witness ∧ HalfConditionReadable witness .gt := ⟨witness_half.1, witness_half.2 .gt⟩
theorem test_witness_AddModuloResult : PcFits witness ∧ HalfConditionReadable witness .gt := ⟨witness_half.1, witness_half.2 .gt⟩
theorem test_witness_MoveToAccResult : PcFits witness ∧ HalfConditionReadable witness .gt := ⟨witness_half.1, witness_half.2 .gt⟩
theorem test_witness_MultiplyAccumulateFractResult : PcFits witness ∧ HalfConditionReadable witness .gt := ⟨witness_half.1, witness_half.2 .gt⟩
theorem test_witness_MoveToAccFractResult : PcFits witness ∧ HalfConditionReadable witness .gt := ⟨witness_half.1, witness_half.2 .gt⟩
theorem test_witness_MultiplyAccumulateToAccFractResult : PcFits witness ∧ HalfConditionReadable witness .gt := ⟨witness_half.1, witness_half.2 .gt⟩
theorem test_witness_MultiplyFractResult : PcFits witness ∧ HalfConditionReadable witness .gt := ⟨witness_half.1, witness_half.2 .gt⟩
theorem test_witness_MultiplyToAccFractResult : PcFits witness ∧ HalfConditionReadable witness .gt := ⟨witness_half.1, witness_half.2 .gt⟩
theorem test_witness_SubtractFractResult : PcFits witness ∧ HalfConditionReadable witness .gt := ⟨witness_half.1, witness_half.2 .gt⟩
theorem test_witness_AddAccToAccFractResult : PcFits witness ∧ HalfConditionReadable witness .gt := ⟨witness_half.1, witness_half.2 .gt⟩
theorem test_witness_AddAccFractResult : PcFits witness ∧ HalfConditionReadable witness .gt := ⟨witness_half.1, witness_half.2 .gt⟩
theorem test_witness_AddFractResult : PcFits witness ∧ HalfConditionReadable witness .gt := ⟨witness_half.1, witness_half.2 .gt⟩
theorem test_witness_CompareResult : PcFits witness := witness_half.1
theorem test_witness_SplatResult : PcFits witness := witness_half.1
theorem test_witness_SelectResult : PcFits witness := witness_half.1
theorem test_witness_ShiftResult : PcFits witness := witness_half.1
theorem test_witness_PackUpperResult : PcFits witness := witness_half.1

theorem test_witness_DecodeEncodeRoundTrip : (Instr.fxvshb 31 0 31).wellFormed = true ∧ (Instr.fxvpckbl 0 31 1 3).wellFormed = true := by decide

theorem test_witness_WordIsFxvExactlyWhenOpcodeAssigned : (0x13FFFFF3 : Word).extractLsb' 26 6 = 4#6 ∧ (0x13FFFFF3 : Word).extractLsb' 2 9 = BitVec.ofNat 9 508 := by
  decide

theorem test_witness_StepRunsDecodedInstruction :
    let s := freeWitness.withFetchWord 32 0x10221F31;
    s.pc.toNat % 4 = 0 ∧ s.text.base.toNat ≤ s.pc.toNat ∧
    (s.text.bytes.drop (s.pc.toNat - s.text.base.toNat)).take 4 = bytesOfWord 0x10221F31 ∧
    decodeWord 0x10221F31 = .ok (.fxvaddhm 1 2 3 .gt) ∧ s.params.unusedFields = .ignore := by
  decide +kernel

/-- The same with nonzero unused fields refused: no unused field, and unused fields that are 0. -/
theorem test_witness_StepRunsDecodedInstruction_strict : ¬UnusedNonzero (.fxvaddhm 1 2 3 .gt) 0x10221F31 ∧ ¬UnusedNonzero (.fxvmtach 2 .eq) 0x1002003F := by
  unfold UnusedNonzero
  decide +kernel

theorem test_witness_LoadedWordRunsNext : freeWitness.params.unusedFields = .ignore ∧ decodeTableWord 32 0x10221F31 = some (.fxvaddhm 1 2 3 .gt) := by
  decide +kernel

/-- A witness for each clause: at the end of the text, one word before it, in the middle of a word, a scalar word, an unassigned XO, a nonzero field that fxvstax does not use. -/
theorem test_witness_StepStopsWhereNoInstructionStands :
    (State.reset.pc.toNat = State.reset.text.base.toNat + State.reset.text.bytes.length) ∧
    (let s : State := { State.reset.withFetchWord 32 0x10221F31 with pc := 0xFC };
      s.pc.toNat ≠ s.text.base.toNat + s.text.bytes.length ∧ s.pc.toNat < s.text.base.toNat) ∧
    (let s : State := { State.reset.withFetchWord 32 0x10221F31 with pc := 0x108 };
      s.pc.toNat ≠ s.text.base.toNat + s.text.bytes.length ∧ s.text.base.toNat + s.text.bytes.length < s.pc.toNat + 4) ∧
    (let s : State := { State.reset.withFetchWord 32 0x10221F31 with pc := 0x102 };
      s.pc.toNat ≠ s.text.base.toNat + s.text.bytes.length ∧ s.pc.toNat % 4 ≠ 0) ∧
    ((State.reset.withFetchWord 32 0x7C0004B0).text.bytes.take 4 = bytesOfWord 0x7C0004B0 ∧ (0x7C0004B0 : Word).extractLsb' 26 6 ≠ 4#6) ∧
    ((State.reset.withFetchWord 32 0x10000000).text.bytes.take 4 = bytesOfWord 0x10000000 ∧ (0x10000000 : Word).extractLsb' 26 6 = 4#6 ∧
      (opRow? ((0x10000000 : Word).extractLsb' 2 9).toNat).isNone = true) ∧
    (let s : State := { State.reset with params := { Config.defaultParams with unusedFields := .refuseNonzero } }.withFetchWord 32 0x13FFFFF3;
      s.text.bytes.take 4 = bytesOfWord 0x13FFFFF3 ∧ decodeWord 0x13FFFFF3 = .ok (.fxvstax 31 31 31) ∧ s.params.unusedFields = .refuseNonzero ∧
      UnusedNonzero (.fxvstax 31 31 31) 0x13FFFFF3) := by
  unfold UnusedNonzero
  decide +kernel

/-- Fields whose four bits agree, set in one area and clear in the other two, at the first and the last element. -/
theorem test_witness_ConditionalReadsSelectedBit :
    (∀ q < 4, vcrBit vcrOfHalves .gt (4 * 0 + q) = true ∧ vcrBit vcrOfHalves .lt (4 * 0 + q) = false) ∧
    (∀ q < 4, vcrBit vcrOfHalves .eq (4 * 7 + q) = true ∧ vcrBit vcrOfHalves .gt (4 * 7 + q) = false) := by
  decide +kernel

/-- Field 0 of the VCR that fxvcmpb left is mixed, and so is field 7; the first bit is set in one and clear in the other. -/
theorem test_witness_MixedFieldReadFollowsParameter :
    condArea .gt = some .gt ∧ vcrBit vcrOfBytes .gt (4 * 0 + 0) ≠ vcrBit vcrOfBytes .gt (4 * 0 + 3) ∧
    condArea .lt = some .lt ∧ vcrBit vcrOfBytes .lt (4 * 7 + 0) ≠ vcrBit vcrOfBytes .lt (4 * 7 + 2) := by
  decide +kernel

theorem test_witness_CompareWritesFieldLayout : ∃ t, exec (.fxvcmphm 31) witness = .next t :=
  exists_of_completes (by decide +kernel)

theorem test_witness_CompareSetsExactlyOneBitPerNibble : writesVcr (.fxvcmpb 2) = true ∧ ∃ t, exec (.fxvcmpb 2) witness = .next t :=
  ⟨rfl, exists_of_completes (by decide +kernel)⟩

/-- Both ways to meet the hypothesis, the first with both parameters unsettled. -/
theorem test_witness_PackLowerResult : PcFits witness ∧
    (let p : Config.Params := { State.reset.params with packMask := .unsettled, pckblSecond := .unsettled };
      p.onGap = .freeValue ∧ p.packMask = .unsettled ∧ p.pckblSecond = .unsettled) ∧
    (let p : Config.Params := { witness.params with packMask := .narrow, pckblSecond := .symmetric };
      p.onGap = .stop ∧ p.packMask ≠ .unsettled ∧ p.pckblSecond ≠ .unsettled) :=
  ⟨witness_half.1, by decide⟩

theorem test_witness_UnpackWritesOnlyTarget : PcFits freeWitness ∧ freeWitness.params.onGap = .freeValue := ⟨witness_half_free.1, rfl⟩

/-- A base register of 0 and one that makes the sum wrap. -/
theorem test_witness_EffectiveAddressResult : ((0 : GReg) = 0) ∧ ((31 : GReg) ≠ 0) ∧
    2 ^ 32 ≤ ((setX State.reset 31 0xFFFFFFFF).x 31).toNat + ((setX State.reset 1 1).x 1).toNat := by
  decide +kernel

/-- A state in which x[1] is the last aligned address. -/
def topState : State := setX State.reset 1 0xFFFFFFF0

theorem test_witness_LoadArrayResult : PcFits topState ∧ AccessOk topState (effectiveAddress topState 0 1).toNat :=
  ⟨by unfold PcFits; decide +kernel, memCheck_load_iff.1 (by decide +kernel)⟩

theorem test_witness_StoreArrayResult : PcFits topState ∧ topState.mem.wf = true ∧ AccessOk topState (effectiveAddress topState 0 1).toNat ∧
    ClearOfText topState (effectiveAddress topState 0 1).toNat :=
  ⟨by unfold PcFits; decide +kernel, by decide +kernel, memCheck_store_iff.1 (by decide +kernel)⟩

theorem test_witness_StoreThenLoadReturnsRegister : topState.mem.wf = true ∧ effectiveAddress topState 1 0 = effectiveAddress topState 0 1 ∧
    ∃ t u, exec (.fxvstax 2 0 1) topState = .next t ∧ exec (.fxvlax 3 1 0) t = .next u := by
  refine ⟨by decide +kernel, by decide +kernel, ?_⟩
  have h : completes (match exec (.fxvstax 2 0 1) topState with
    | .next t => exec (.fxvlax 3 1 0) t
    | r => r) = true := by decide +kernel
  obtain ⟨t, ht⟩ := exists_of_completes (r := exec (.fxvstax 2 0 1) topState) (by decide +kernel)
  rw [ht] at h
  obtain ⟨u, hu⟩ := exists_of_completes h
  exact ⟨t, u, ht, hu⟩

/-- A witness for each clause, at the boundary of its range: the first address that wraps, the last misaligned one that does not (under footprint and under bytes n), the first unmapped one, the text. -/
theorem test_witness_LoadStoreStopsInOrder :
    2 ^ 32 < (effectiveAddress (setX State.reset 1 0xFFFFFFF1) 0 1).toNat + 16 * (setX State.reset 1 0xFFFFFFF1).slices.length ∧
    (let s := setX State.reset 1 0xFFFFFFEF;
      (effectiveAddress s 0 1).toNat + 16 * s.slices.length ≤ 2 ^ 32 ∧ ¬Aligned s (effectiveAddress s 0 1).toNat) ∧
    (let s := setX { State.reset with params := { Config.defaultParams with memAlign := .bytes 4 } } 1 0xFFFFFFEF;
      (effectiveAddress s 0 1).toNat + 16 * s.slices.length ≤ 2 ^ 32 ∧ ¬Aligned s (effectiveAddress s 0 1).toNat) ∧
    (let s := setX { State.reset with platform := { ram := [Region.mk 0x1000 16], io := [] } } 1 0x1010;
      (effectiveAddress s 0 1).toNat + 16 * s.slices.length ≤ 2 ^ 32 ∧ Aligned s (effectiveAddress s 0 1).toNat ∧
        ∃ k < 16 * s.slices.length, ¬Exists s.platform.ram ((effectiveAddress s 0 1).toNat + k)) ∧
    (let s := setX (State.reset.withFetchWord 32 0x10221F31) 1 0x100;
      AccessOk s (effectiveAddress s 0 1).toNat ∧ ¬ClearOfText s (effectiveAddress s 0 1).toNat) := by
  refine ⟨by decide +kernel, ⟨by decide +kernel, ?_⟩, ⟨by decide +kernel, ?_⟩,
    ⟨by decide +kernel, aligned_iff.2 (by decide +kernel), 0, by decide +kernel, ?_⟩, memCheck_load_iff.1 (by decide +kernel), ?_⟩
  · rw [aligned_iff]
    decide +kernel
  · rw [aligned_iff]
    decide +kernel
  · rw [← inRegions_iff]
    decide +kernel
  · rw [← meetsText_iff]
    decide +kernel

theorem test_witness_InputResult : PcFits topState ∧ Exists topState.platform.io (effectiveAddress topState 1 1).toNat :=
  ⟨by unfold PcFits; decide +kernel, inRegions_iff.1 (by decide +kernel)⟩

theorem test_witness_OutputResult : PcFits topState ∧ Exists topState.platform.io (effectiveAddress topState 1 1).toNat := test_witness_InputResult

theorem test_witness_IoStopsAtMissingLocation :
    let s : State := { topState with platform := { ram := [], io := [Region.mk 0x40 1] } };
    ¬Exists s.platform.io (effectiveAddress s 0 1).toNat := by
  intro s
  rw [← inRegions_iff]
  decide +kernel

theorem test_witness_EveryInstructionAdvancesPc : ∃ t, exec (.fxvmatachfs 2 3 .gt) witness = .next t := exists_of_completes (by decide +kernel)

/-- The second clause, at the first pc that does not fit: an instruction that would complete, one that would fault, one that would be refused. -/
theorem test_witness_EveryInstructionAdvancesPc_wrap :
    let s : State := { freeWitness with pc := 0xFFFFFFFC, params := { Config.defaultParams with onGap := .stop } };
    ¬PcFits s ∧ (∃ t, exec (.fxvmatachfs 2 3 .always) { s with pc := 0 } = .next t) ∧
    exec (.fxvmatachfs 2 3 .gt) { s with pc := 0 } = .fault .vcrMixed ∧
    exec (.fxvupckbl 1 2 3 0) { s with pc := 0 } = .refused .unpackNotDefined := by
  refine ⟨by unfold PcFits; decide +kernel, exists_of_completes (by decide +kernel), exec_fault_iff.2 ⟨.gt, rfl, by decide +kernel⟩, rfl⟩

/-- For each clause: a load for memory, a store for the log. -/
theorem test_witness_OnlyStoreTouchesMemoryOnlyIoTouchesLog :
    ((∃ t, exec (.fxvlax 2 0 1) topState = .next t) ∧ ∀ vrt ra rb, Instr.fxvlax 2 0 1 ≠ .fxvstax vrt ra rb) ∧
    ((∃ t, exec (.fxvstax 2 0 1) topState = .next t) ∧ ∀ vrt ra rb, Instr.fxvstax 2 0 1 ≠ .fxvinx vrt ra rb ∧ Instr.fxvstax 2 0 1 ≠ .fxvoutx vrt ra rb) :=
  ⟨⟨exists_of_completes (by decide +kernel), by simp⟩, exists_of_completes (by decide +kernel), by simp⟩

theorem test_witness_NoInstructionWritesGprTextOrConfiguration : ∃ t, exec (.fxvstax 2 0 1) topState = .next t := exists_of_completes (by decide +kernel)

/-- For each clause: an instruction that does not write the VCR, and one that does not write the accumulator. -/
theorem test_witness_OnlyComparesWriteVcrOnlyTacWritesAcc :
    ((∃ t, exec (.fxvmatachm 2 3 .lt) witness = .next t) ∧ writesVcr (.fxvmatachm 2 3 .lt) = false) ∧
    ((∃ t, exec (.fxvcmpb 2) witness = .next t) ∧ writesAcc (.fxvcmpb 2) = false) :=
  ⟨⟨exists_of_completes (by decide +kernel), rfl⟩, exists_of_completes (by decide +kernel), rfl⟩

/-- Two states that agree on slice 1 and differ in slice 0. -/
theorem test_witness_SlicesDoNotInfluenceEachOther :
    let s : State := { witness with slices := [Slice.reset, Slice.reset] };
    let s' : State := { witness with slices := [Slice.reset.setReg 2 1, Slice.reset], pc := 0 };
    (∀ vrt ra rb, Instr.fxvaddhm 1 2 2 .gt ≠ .fxvlax vrt ra rb ∧ Instr.fxvaddhm 1 2 2 .gt ≠ .fxvinx vrt ra rb) ∧
    s.gpr = s'.gpr ∧ s.params = s'.params ∧ s.retired = s'.retired ∧ s.slices[1]? = some Slice.reset ∧ s'.slices[1]? = some Slice.reset ∧
    (∃ t, exec (.fxvaddhm 1 2 2 .gt) s = .next t) ∧ ∃ t', exec (.fxvaddhm 1 2 2 .gt) s' = .next t' :=
  ⟨by simp, rfl, rfl, rfl, rfl, rfl, exists_of_completes (by decide +kernel), exists_of_completes (by decide +kernel)⟩

/-- The VCR that fxvcmphm left is one the invariant allows, and the step runs fxvstax. -/
theorem test_witness_EveryStepKeepsInvariant :
    let s := { topState with slices := witness.slices }.withFetchWord 32 0x10600FF0;
    Inv s ∧ ∃ t, step s = .next t := by
  refine ⟨⟨by decide +kernel, by decide +kernel, by decide +kernel, ?_, ?_⟩, exists_of_completes (by decide +kernel)⟩
  · intro sl h a
    obtain rfl := List.mem_singleton.1 h
    cases a <;> decide +kernel
  · intro sl h a a'
    obtain rfl := List.mem_singleton.1 h
    cases a <;> cases a' <;> decide +kernel

theorem test_witness_NoFaultWhenGapsRunFree : (freeWitness.withFetchWord 32 0x10421F31).params.onGap = .freeValue ∧
    anyMixed .gt freeWitness.slices = true := by
  decide +kernel

/-- Both sides of the first clause hold for C = 1 on a mixed VCR, and neither for C = 0; the other two clauses apply to the same instructions. -/
theorem test_witness_MixedConditionFaultsUnderStop :
    let s : State := { freeWitness with params := { Config.defaultParams with onGap := .stop } };
    PcFits s ∧ halfCondition? (.fxvaddhfs 1 2 3 .gt) = some .gt ∧ condArea .gt = some .gt ∧ s.params.onGap = .stop ∧ s.params.vcrHwRead = .unspecified ∧
    (∃ sl ∈ s.slices, ∃ e < 8, ∃ q < 4, ∃ q' < 4, vcrBit sl.vcr .gt (4 * e + q) ≠ vcrBit sl.vcr .gt (4 * e + q')) ∧
    exec (.fxvaddhfs 1 2 3 .gt) s = .fault .vcrMixed ∧ halfCondition? (.fxvaddhfs 1 2 3 .always) = some .always ∧
    ∃ t, exec (.fxvaddhfs 1 2 3 .always) s = .next t :=
  ⟨witness_half_free.1, rfl, rfl, rfl, rfl, by decide +kernel, exec_fault_iff.2 ⟨.gt, rfl, by decide +kernel⟩, rfl, exists_of_completes (by decide +kernel)⟩

/-- Each parameter unsettled while the other is settled. -/
theorem test_witness_PackLowerAndUnpackRefusedUnderStop : witness.params.onGap = .stop ∧
    (let p : Config.Params := { witness.params with packMask := .unsettled };
      p.packMask = .unsettled ∧ p.pckblSecond ≠ .unsettled) ∧
    (let p : Config.Params := { witness.params with pckblSecond := .unsettled };
      p.packMask ≠ .unsettled ∧ p.pckblSecond = .unsettled) := by
  decide

end Sys2Proof.Tests
end

section
/-! SUPPORT. The value primitives of 00_scope.md: what `sat`, `add_sat` and `mult_sat_fract` are as numbers, for every width, and the statements about them and about `conditional`. -/

namespace Sys2Proof.Machine

/-- `sat_N(z)` as a number is z clamped to the signed range (00_scope.md R12). -/
theorem toInt_sat {N : Nat} (hN : 0 < N) (z : Int) : (sat N z).toInt = clamp N z := by
  have hM : (0 : Int) < 2 ^ (N - 1) := by positivity
  unfold sat clamp
  generalize hm : (2 : Int) ^ (N - 1) = M at hM ⊢
  have toInt_inRange {y : Int} (h : -M ≤ y) (h' : y < M) : (BitVec.ofInt N y).toInt = y :=
    BitVec.toInt_ofInt_eq_self hN (hm ▸ h) (hm ▸ h')
  split
  · rw [toInt_inRange] <;> omega
  · split <;> rw [toInt_inRange] <;> omega

/-- `add_sat` as a number is the clamped sum (00_scope.md R17). -/
theorem toInt_addSat {N : Nat} (hN : 0 < N) (a b : BitVec N) : (addSat a b).toInt = clamp N (a.toInt + b.toInt) :=
  toInt_sat hN _

/-- The product of two numbers of a signed range reaches the square of its bound only where both are the most negative one. -/
theorem mul_lt_sq_of_signed {M a b : Int} (ha : -M ≤ a) (ha' : a < M) (hb : -M ≤ b) (hb' : b < M) (hne : ¬(a = -M ∧ b = -M)) :
    a * b < M * M := by
  rcases eq_or_lt_of_le ha with rfl | ha
  · have hb : -M < b := lt_of_le_of_ne hb fun h => hne ⟨rfl, h.symm⟩
    nlinarith
  · nlinarith

/-- `mult_sat_fract` as a number: twice the product fits 2n bit except for -1 times -1 (00_scope.md R16). -/
theorem toInt_multSatFract {n : Nat} (hn : 0 < n) (a b : BitVec n) : (multSatFract a b).toInt = fractProduct n a.toInt b.toInt := by
  have hpow : (2 : Int) ^ (2 * n - 1) = 2 * 2 ^ (n * 2 - 2) := by
    rw [← pow_succ']; congr 1; omega
  have hpos : (0 : Int) < 2 ^ (n * 2 - 2) := by positivity
  unfold multSatFract fractProduct
  split
  · exact BitVec.toInt_ofInt_eq_self (by omega) (by omega) (by omega)
  · next hne =>
    have hsq : (2 : Int) ^ (n - 1) * 2 ^ (n - 1) = 2 ^ (n * 2 - 2) := by
      rw [← pow_add]; congr 1; omega
    have hlow := BitVec.le_toInt_mul_toInt (x := a) (y := b)
    have hhigh := mul_lt_sq_of_signed a.le_toInt a.toInt_lt b.le_toInt b.toInt_lt hne
    exact BitVec.toInt_ofInt_eq_self (by omega) (by omega) (by omega)

/-- Settles O10: the fact for every width, its bounds evaluated at the two widths. -/
theorem multSatFractIsExactOrClamps : Obligations.MultSatFractIsExactOrClamps :=
  ⟨toInt_multSatFract (n := 16) (by decide), toInt_multSatFract (n := 8) (by decide)⟩

/-- Settles O11: the fact for every width, its bounds evaluated at the two widths. -/
theorem addSatClamps : Obligations.AddSatClamps :=
  ⟨toInt_addSat (N := 32) (by decide), toInt_addSat (N := 16) (by decide)⟩

/-- The condition of a byte element, once C selects an area, is bit 2j of that area (10_state.md R38). -/
theorem condB_of_area {c : Cond} {a : Area} (hc : condArea c = some a) (v : VcrBits) (j : Nat) : condB c v j = vcrBit v a (2 * j) := by
  simp [condB, hc]

/-- Settles O8: C = 0 selects no area, and C = 1, 2, 3 select gt, lt, eq, for the byte and for the halfword conditions. -/
theorem conditionalReadsSelectedBit : Obligations.ConditionalReadsSelectedBit := by
  constructor
  · intro v j
    exact ⟨condB_always v j, condB_of_area (a := .gt) rfl v j, condB_of_area (a := .lt) rfl v j, condB_of_area (a := .eq) rfl v j⟩
  · intro p r k v i x
    exact ⟨condH_always p r k v i, condH_of_common p r k (a := .gt) rfl, condH_of_common p r k (a := .lt) rfl,
      condH_of_common p r k (a := .eq) rfl⟩

end Sys2Proof.Machine
end

section
/-! SUPPORT. The modulo family (40_modulo_halfword.md, 41_modulo_byte.md): what the shared operations leave under the premises the statements name, and the statements about the products, the sums, the compares and the splats. -/

namespace Sys2Proof.Machine

/-- A halfword instruction that writes VRT completes wherever its condition is readable (10_state.md R38). -/
theorem halfToReg_written_of_readable {vrt : VReg} {c : Cond} {f : Slice → Nat → Half} {s : State} (hp : PcFits s)
    (hc : HalfConditionReadable s c) : ∃ t, halfToReg vrt c f s = .next t ∧ HalfRegWritten s t vrt c f :=
  halfToReg_written (condHStops_eq_false_iff.2 hc) hp

/-- A halfword instruction that writes the accumulator completes wherever its condition is readable (10_state.md R38). -/
theorem halfToAcc_written_of_readable {c : Cond} {f : Slice → Nat → Word} {s : State} (hp : PcFits s)
    (hc : HalfConditionReadable s c) : ∃ t, halfToAcc c f s = .next t ∧ HalfAccWritten s t c f :=
  halfToAcc_written (condHStops_eq_false_iff.2 hc) hp

/-- What an unconditional instruction that makes VRT of halfwords leaves in it, and its frame. -/
theorem writeReg_ofHalves_written {vrt : VReg} {f : Slice → Nat → Half} {s : State} (hp : PcFits s) :
    ∃ t, writeReg vrt (fun _ sl => ofHalves (f sl)) s = .next t ∧ OnlySlicesChange s t ∧ RegHalvesAre s t vrt f := by
  obtain ⟨t, hnext, heach, hrest⟩ := writeReg_written (vrt := vrt) (f := fun _ sl => ofHalves (f sl)) hp
  refine ⟨t, hnext, hrest, heach.mono fun _ sl tl ⟨hreg, honly⟩ => ⟨fun i hi => ?_, honly⟩⟩
  rw [Slice.h, hreg, halfOf_ofHalves _ hi]

/-- What an unconditional instruction that makes VRT of bytes leaves in it, and its frame. -/
theorem writeReg_ofBytes_written {vrt : VReg} {f : Nat → Slice → Nat → Byte} {s : State} (hp : PcFits s) :
    ∃ t, writeReg vrt (fun k sl => ofBytes (f k sl)) s = .next t ∧ OnlySlicesChange s t ∧ RegBytesAre s t vrt f := by
  obtain ⟨t, hnext, heach, hrest⟩ := writeReg_written (vrt := vrt) (f := fun k sl => ofBytes (f k sl)) hp
  refine ⟨t, hnext, hrest, heach.mono fun _ sl tl ⟨hreg, honly⟩ => ⟨fun j hj => ?_, honly⟩⟩
  rw [Slice.b, hreg, byteOf_ofBytes _ hj]

/-- What a compare leaves in the three areas of the VCR, nibble by nibble, and its frame (10_state.md R37). -/
theorem writeVcr_written {f : Slice → Nat → Int} {s : State} (hp : PcFits s) :
    ∃ t, writeVcr f s = .next t ∧ OnlySlicesChange s t ∧
      EachSlice s t fun _ sl tl => (∀ r, tl.reg r = sl.reg r) ∧ tl.acc = sl.acc ∧
        ∀ k < 32, vcrBit tl.vcr .eq k = decide (f sl k = 0) ∧ vcrBit tl.vcr .gt k = decide (f sl k > 0) ∧
          vcrBit tl.vcr .lt k = decide (f sl k < 0) := by
  refine ⟨_, writeVcr_next_iff.2 ⟨hp, rfl⟩, onlySlicesChange_mapSlices s _, eachSlice_mapSlices fun _ sl => ?_⟩
  refine ⟨fun _ => rfl, rfl, fun k hk => ?_⟩
  have hbit (a : Area) : vcrBit (ofVcrBits fun a k => compareZero a (f sl k)) a k = compareZero a (f sl k) := vcrBit_ofVcrBits _ a hk
  exact ⟨hbit .eq, hbit .gt, hbit .lt⟩

/-- The low bits of a word are its value modulo the power of two. -/
theorem extractLsb'_zero_eq_ofNat {n : Nat} (hn : n ≤ 32) (x : Word) : x.extractLsb' 0 n = BitVec.ofNat n x.toNat := by
  rw [BitVec.ofNat_toNat, BitVec.setWidth_eq_extractLsb' hn]

/-! The instructions. `exec` unfolds to the shared operation of the target applied to the result by element, so each part of a statement is the opcode, by evaluation, and the `_written` lemma of that operation. -/

/-- Settles O12: fxvmahm (R121) and fxvmabm (R141) are the two writes of VRT applied to a * b + m. -/
theorem multiplyAccumulateModuloResult : Obligations.MultiplyAccumulateModuloResult :=
  ⟨fun _ _ _ _ _ => ⟨⟨rfl, rfl⟩, halfToReg_written_of_readable⟩,
    fun _ _ _ _ _ => ⟨⟨rfl, rfl⟩, byteToReg_written⟩⟩

/-- Settles O14: fxvmulhm (R123) and fxvmulbm (R143) are the two writes of VRT applied to a * b. -/
theorem multiplyModuloResult : Obligations.MultiplyModuloResult :=
  ⟨fun _ _ _ _ _ => ⟨⟨rfl, rfl⟩, halfToReg_written_of_readable⟩,
    fun _ _ _ _ _ => ⟨⟨rfl, rfl⟩, byteToReg_written⟩⟩

/-- Settles O16: fxvsubhm (R125) and fxvsubbm (R145) are the two writes of VRT applied to a - b. -/
theorem subtractModuloResult : Obligations.SubtractModuloResult :=
  ⟨fun _ _ _ _ _ => ⟨⟨rfl, rfl⟩, halfToReg_written_of_readable⟩,
    fun _ _ _ _ _ => ⟨⟨rfl, rfl⟩, byteToReg_written⟩⟩

/-- Settles O17: fxvaddactachm (R126) and fxvaddactacb (R146) are the two writes of the accumulator applied to a + m, read as integers. -/
theorem addAccToAccModuloResult : Obligations.AddAccToAccModuloResult :=
  ⟨fun _ _ _ => ⟨⟨rfl, rfl⟩, halfToAcc_written_of_readable⟩,
    fun _ _ _ => ⟨⟨rfl, rfl⟩, byteToAcc_written⟩⟩

/-- Settles O18: fxvaddtachm (R127) and fxvaddtacb (R147) are the two writes of the accumulator applied to a + b, read as integers. -/
theorem addToAccModuloResult : Obligations.AddToAccModuloResult :=
  ⟨fun _ _ _ _ => ⟨⟨rfl, rfl⟩, halfToAcc_written_of_readable⟩,
    fun _ _ _ _ => ⟨⟨rfl, rfl⟩, byteToAcc_written⟩⟩

/-- Settles O19: fxvaddachm (R128) and fxvaddacbm (R148) are the two writes of VRT applied to a + m; both only read the accumulator. -/
theorem addAccModuloResult : Obligations.AddAccModuloResult :=
  ⟨fun _ _ _ _ => ⟨⟨rfl, rfl⟩, halfToReg_written_of_readable⟩,
    fun _ _ _ _ => ⟨⟨rfl, rfl⟩, byteToReg_written⟩⟩

/-- Settles O20: fxvaddhm (R129) and fxvaddbm (R149) are the two writes of VRT applied to a + b. -/
theorem addModuloResult : Obligations.AddModuloResult :=
  ⟨fun _ _ _ _ _ => ⟨⟨rfl, rfl⟩, halfToReg_written_of_readable⟩,
    fun _ _ _ _ _ => ⟨⟨rfl, rfl⟩, byteToReg_written⟩⟩

/-- Settles O31: both compares (R130, R150) are `writeVcr`, nibble k taken from halfword k / 4 or from byte k / 2. -/
theorem compareResult : Obligations.CompareResult :=
  ⟨fun _ _ => ⟨⟨rfl, rfl⟩, writeVcr_written⟩,
    fun _ _ => ⟨⟨rfl, rfl⟩, writeVcr_written⟩⟩

/-- Settles O34: both splats (R132, R152) are `writeReg` of the low bits of x[RA] in every element. -/
theorem splatResult : Obligations.SplatResult := by
  constructor
  · intro vrt ra s
    rw [← extractLsb'_zero_eq_ofNat (by decide)]
    exact ⟨⟨rfl, rfl⟩, writeReg_ofHalves_written⟩
  · intro vrt ra s
    rw [← extractLsb'_zero_eq_ofNat (by decide)]
    exact ⟨⟨rfl, rfl⟩, writeReg_ofBytes_written⟩

end Sys2Proof.Machine
end

section
/-! SUPPORT. The saturating fractional family (42_satfract_halfword.md, 43_satfract_byte.md): what its operators are as exact arithmetic, for every width, and the statements about the products and the left-aligned move. -/

namespace Sys2Proof.Machine

/-- Taking the upper half is the arithmetic shift right by the element width: the number is divided and rounded toward minus infinity (42_satfract_halfword.md R160 (e)). -/
theorem upper_eq_ofInt {n : Nat} (x : BitVec (2 * n)) : upper x = BitVec.ofInt n (x.toInt / 2 ^ n) := by
  have hshift : upper x = (x.sshiftRight n).signExtend n := by
    rw [BitVec.signExtend_eq_setWidth_of_le _ (by omega)]
    ext i hi
    have hlow : i < 2 * n := by omega
    have hhigh : n + i < 2 * n := by omega
    simp [upper, BitVec.getElem_sshiftRight, hlow, hhigh]
  rw [hshift, BitVec.signExtend, BitVec.toInt_sshiftRight, Int.shiftRight_eq_div_pow, Int.natCast_pow, Nat.cast_ofNat]

/-- The saturating fractional product is the bit pattern of `fractProduct` (00_scope.md R16). -/
theorem multSatFract_eq_ofInt {n : Nat} (hn : 0 < n) (a b : BitVec n) :
    multSatFract a b = BitVec.ofInt (2 * n) (fractProduct n a.toInt b.toInt) := by
  rw [← toInt_multSatFract hn, BitVec.ofInt_toInt]

/-- The upper half of the saturating fractional product is the exact one divided by the power of two. -/
theorem upper_multSatFract {n : Nat} (hn : 0 < n) (a b : BitVec n) :
    upper (multSatFract a b) = BitVec.ofInt n (fractProduct n a.toInt b.toInt / 2 ^ n) := by
  rw [upper_eq_ofInt, toInt_multSatFract hn]

/-- A double-precision value plus the fractional product, saturating, is the clamped exact sum, as a number. -/
theorem toInt_addSat_multSatFract {n : Nat} (hn : 0 < n) (m : BitVec (2 * n)) (a b : BitVec n) :
    (addSat m (multSatFract a b)).toInt = clamp (2 * n) (m.toInt + fractProduct n a.toInt b.toInt) := by
  rw [toInt_addSat (by omega), toInt_multSatFract hn]

/-- The multiply-add of the family is the bit pattern of the clamped exact sum. -/
theorem addSat_multSatFract_eq_ofInt {n : Nat} (hn : 0 < n) (m : BitVec (2 * n)) (a b : BitVec n) :
    addSat m (multSatFract a b) = BitVec.ofInt (2 * n) (clamp (2 * n) (m.toInt + fractProduct n a.toInt b.toInt)) := by
  rw [← toInt_addSat_multSatFract hn, BitVec.ofInt_toInt]

/-- The upper half of the multiply-add is the clamped exact sum divided by the power of two. -/
theorem upper_addSat_multSatFract {n : Nat} (hn : 0 < n) (m : BitVec (2 * n)) (a b : BitVec n) :
    upper (addSat m (multSatFract a b)) = BitVec.ofInt n (clamp (2 * n) (m.toInt + fractProduct n a.toInt b.toInt) / 2 ^ n) := by
  rw [upper_eq_ofInt, toInt_addSat_multSatFract hn]

/-- An element with zeros below is the element times the power of two. -/
theorem append_zero_eq_ofInt {n : Nat} (hn : 0 < n) (m : Nat) (x : BitVec n) : x ++ 0#m = BitVec.ofInt (n + m) (x.toInt * 2 ^ m) := by
  have hint : (x ++ 0#m).toInt = x.toInt * 2 ^ m := by
    simp [BitVec.toInt_append, hn.ne', mul_comm]
  rw [← hint, BitVec.ofInt_toInt]

/-! What the shared operations leave, for a result the claim states by another term than the instruction's meaning: the two agree element by element. -/

theorem halfToReg_written_of_eq {vrt : VReg} {c : Cond} {f g : Slice → Nat → Half} {s : State} (hfg : ∀ sl i, f sl i = g sl i)
    (hp : PcFits s) (hc : HalfConditionReadable s c) : ∃ t, halfToReg vrt c f s = .next t ∧ HalfRegWritten s t vrt c g :=
  funext₂ hfg ▸ halfToReg_written_of_readable hp hc

theorem halfToAcc_written_of_eq {c : Cond} {f g : Slice → Nat → Word} {s : State} (hfg : ∀ sl i, f sl i = g sl i)
    (hp : PcFits s) (hc : HalfConditionReadable s c) : ∃ t, halfToAcc c f s = .next t ∧ HalfAccWritten s t c g :=
  funext₂ hfg ▸ halfToAcc_written_of_readable hp hc

theorem byteToReg_written_of_eq {vrt : VReg} {c : Cond} {f g : Slice → Nat → Byte} {s : State} (hfg : ∀ sl j, f sl j = g sl j)
    (hp : PcFits s) : ∃ t, byteToReg vrt c f s = .next t ∧ ByteRegWritten s t vrt c g :=
  funext₂ hfg ▸ byteToReg_written hp

theorem byteToAcc_written_of_eq {c : Cond} {f g : Slice → Nat → Half} {s : State} (hfg : ∀ sl j, f sl j = g sl j)
    (hp : PcFits s) : ∃ t, byteToAcc c f s = .next t ∧ ByteAccWritten s t c g :=
  funext₂ hfg ▸ byteToAcc_written hp

/-! The instructions: each part of a statement is the opcode, by evaluation, and the shared operation of the target with the operator's exact value at 16 or at 8 bit. -/

/-- Settles O22: fxvmahfs (R161) and fxvmabfs (R181) are the two writes of VRT applied to the upper half of the multiply-add. -/
theorem multiplyAccumulateFractResult : Obligations.MultiplyAccumulateFractResult :=
  ⟨fun _ _ _ _ _ => ⟨⟨rfl, rfl⟩, halfToReg_written_of_eq fun _ _ => upper_addSat_multSatFract (n := 16) (by decide) _ _ _⟩,
    fun _ _ _ _ _ => ⟨⟨rfl, rfl⟩, byteToReg_written_of_eq fun _ _ => upper_addSat_multSatFract (n := 8) (by decide) _ _ _⟩⟩

/-- Settles O23: fxvmtachf (R162) and fxvmtacbf (R182) are the two writes of the accumulator applied to the element with zeros below. -/
theorem moveToAccFractResult : Obligations.MoveToAccFractResult :=
  ⟨fun _ _ _ => ⟨⟨rfl, rfl⟩, halfToAcc_written_of_eq fun _ _ => append_zero_eq_ofInt (n := 16) (by decide) 16 _⟩,
    fun _ _ _ => ⟨⟨rfl, rfl⟩, byteToAcc_written_of_eq fun _ _ => append_zero_eq_ofInt (n := 8) (by decide) 8 _⟩⟩

/-- Settles O24: fxvmatachfs (R163) and fxvmatacbfs (R183) are the two writes of the accumulator applied to the multiply-add. -/
theorem multiplyAccumulateToAccFractResult : Obligations.MultiplyAccumulateToAccFractResult :=
  ⟨fun _ _ _ _ => ⟨⟨rfl, rfl⟩, halfToAcc_written_of_eq fun _ _ => addSat_multSatFract_eq_ofInt (n := 16) (by decide) _ _ _⟩,
    fun _ _ _ _ => ⟨⟨rfl, rfl⟩, byteToAcc_written_of_eq fun _ _ => addSat_multSatFract_eq_ofInt (n := 8) (by decide) _ _ _⟩⟩

/-- Settles O25: fxvmulhfs (R164) and fxvmulbfs (R184) are the two writes of VRT applied to the upper half of the product. -/
theorem multiplyFractResult : Obligations.MultiplyFractResult :=
  ⟨fun _ _ _ _ _ => ⟨⟨rfl, rfl⟩, halfToReg_written_of_eq fun _ _ => upper_multSatFract (n := 16) (by decide) _ _⟩,
    fun _ _ _ _ _ => ⟨⟨rfl, rfl⟩, byteToReg_written_of_eq fun _ _ => upper_multSatFract (n := 8) (by decide) _ _⟩⟩

/-- Settles O26: fxvmultachfs (R165) and fxvmultacbfs (R185) are the two writes of the accumulator applied to the product. -/
theorem multiplyToAccFractResult : Obligations.MultiplyToAccFractResult :=
  ⟨fun _ _ _ _ => ⟨⟨rfl, rfl⟩, halfToAcc_written_of_eq fun _ _ => multSatFract_eq_ofInt (n := 16) (by decide) _ _⟩,
    fun _ _ _ _ => ⟨⟨rfl, rfl⟩, byteToAcc_written_of_eq fun _ _ => multSatFract_eq_ofInt (n := 8) (by decide) _ _⟩⟩

end Sys2Proof.Machine
end

section
/-! SUPPORT. The permute family (44_permute.md): the statement about fxvsel. -/

namespace Sys2Proof.Machine

/-- The meaning of fxvsel is the unconditional write of VRT whose byte j comes from VRB or from VRA: the condition selects the source and never gates the write (44_permute.md R201). -/
theorem exec_fxvsel (vrt vra vrb : VReg) (c : Cond) (s : State) :
    exec (.fxvsel vrt vra vrb c) s =
      writeReg vrt (fun _ sl => ofBytes fun j => if condB c sl.vcr j then sl.b vrb j else sl.b vra j) s := rfl

/-- Settles O35: fxvsel writes every byte of VRT, so the unconditional write of bytes gives completion, result and frame at once. -/
theorem selectResult : Obligations.SelectResult := by
  intro vrt vra vrb c s
  refine ⟨⟨rfl, rfl⟩, fun hp => ?_⟩
  rw [exec_fxvsel]
  exact writeReg_ofBytes_written hp

end Sys2Proof.Machine
end

section
/-! SUPPORT. Decoding and stepping (30_encoding.md, 70_reset_and_hazards.md): the row of the opcode map that an instruction's word finds, the fields as bits of the word, what `step` does with a word at pc, and the statements about them. -/

namespace Sys2Proof

/-- The XOs of the opcode map, in its order (30_encoding.md R96). -/
def assignedXos : List Nat := opTable.map OpRow.xo

/-- The word of a well-formed instruction finds the row that builds the instruction from the word's fields. -/
theorem exists_row_of_encode {i : Instr} (h : i.wellFormed = true) :
    ∃ r, opRow? i.xo = some r ∧ r.build (wordFields (encode i)) = i := by
  rw [wordFields_encode h]
  cases i <;> exact ⟨_, rfl, by simp [Instr.fieldNumbers, Fields.cond, condOfField_condField]⟩

/-- Decoding the word of a well-formed instruction gives the instruction. -/
theorem decodeWord_encode {i : Instr} (h : i.wellFormed = true) : decodeWord (encode i) = .ok i := by
  obtain ⟨hop, hxo⟩ := Laws.fixedBits_of_wellFormed h
  obtain ⟨r, hr, hbuild⟩ := exists_row_of_encode h
  simp [decodeWord, hop, hxo, hr, hbuild]

/-- Settles O1: the word finds the instruction's row, and the bytes of a word decode as the word does. -/
theorem decodeEncodeRoundTrip : Obligations.DecodeEncodeRoundTrip := by
  intro i h
  refine ⟨decodeWord_encode h, fun rest => ?_⟩
  rw [encodeBytes, decode_bytesOfWord, decodeWord_encode h]
  rfl

/-- The primary opcode as bits of the word (30_encoding.md R91). -/
theorem opcd_eq_four_iff {w : Word} : (wordFields w).opcd = 4 ↔ w.extractLsb' 26 6 = 4#6 := by
  simp [wordFields, ← BitVec.toNat_inj, Nat.shiftRight_eq_div_pow]

/-- The extended opcode as bits of the word (30_encoding.md R91). -/
theorem xo_eq_toNat (w : Word) : (wordFields w).xo = (w.extractLsb' 2 9).toNat := by
  simp [wordFields, Nat.shiftRight_eq_div_pow]

/-- The opcode map has a row for an XO exactly when the XO is assigned. -/
theorem exists_opRow?_iff {xo : Nat} : (∃ r, opRow? xo = some r) ↔ xo ∈ assignedXos := by
  simp only [opRow?, ← Option.isSome_iff_exists, List.find?_isSome, assignedXos, List.mem_map, beq_iff_eq]

/-- An assigned XO fits its nine bits. -/
theorem lt_of_mem_assignedXos {xo : Nat} (h : xo ∈ assignedXos) : xo < 512 := by
  revert xo
  decide

/-- Whatever the fields, a row builds an instruction that fits them. -/
theorem wellFormed_build {r : OpRow} {f : Fields} (h : r ∈ opTable) (hc : f.c < 4) : (r.build f).wellFormed = true := by
  revert r
  simp only [opTable, List.cons_append, List.nil_append, List.forall_mem_cons]
  simp [Instr.wellFormed, hc]

/-- A word decodes exactly when its primary opcode is 4 and its XO assigned; the instruction has that XO and fits its fields. -/
theorem decodeWord_xo_iff {w : Word} {X : Nat} : (∃ i, decodeWord w = .ok i ∧ i.xo = X ∧ i.wellFormed = true) ↔
    X ∈ assignedXos ∧ (wordFields w).opcd = 4 ∧ (wordFields w).xo = X := by
  have hc : (wordFields w).c < 4 := Nat.mod_lt _ (by decide)
  constructor
  · rintro ⟨i, hi, rfl, -⟩
    obtain ⟨hop, r, hr, hxo, rfl⟩ := decodeWord_ok hi
    rw [(fieldNumbers_build hr hc).1]
    exact ⟨List.mem_map_of_mem hr, hop, hxo.symm⟩
  · rintro ⟨hX, hop, rfl⟩
    obtain ⟨r, hr⟩ := exists_opRow?_iff.2 hX
    have hmem : r ∈ opTable := List.mem_of_find?_eq_some hr
    have hxo : r.xo = (wordFields w).xo := by simpa using List.find?_some hr
    exact ⟨r.build (wordFields w), by simp [decodeWord, hop, hr], (fieldNumbers_build hmem hc).1.trans hxo, wellFormed_build hmem hc⟩

/-- Settles O2: the XOs of the map are the 53 listed, and primary opcode and XO are the bits named. -/
theorem wordIsFxvExactlyWhenOpcodeAssigned : Obligations.WordIsFxvExactlyWhenOpcodeAssigned := by
  intro w X
  rw [decodeWord_xo_iff, opcd_eq_four_iff, xo_eq_toNat]
  change X ∈ assignedXos ∧ _ ↔ X ∈ assignedXos ∧ _
  refine and_congr_right fun hX => and_congr_right fun _ => ?_
  rw [← BitVec.toNat_inj, BitVec.toNat_ofNat, Nat.mod_eq_of_lt (lt_of_mem_assignedXos hX)]

/-- Settles O3: the seven words, evaluated. -/
theorem writtenOutWordsDecode : Obligations.WrittenOutWordsDecode :=
  ⟨rfl, rfl, rfl, rfl, rfl, rfl, rfl⟩

/-- A word with another primary opcode is no FXV instruction (30_encoding.md R99). -/
theorem decodeWord_notFxv {w : Word} (h : w.extractLsb' 26 6 ≠ 4#6) : decodeWord w = .error .notFxv :=
  if_neg (mt opcd_eq_four_iff.1 h)

/-- A word with primary opcode 4 and an XO without a row is unassigned (30_encoding.md R99). -/
theorem decodeWord_unassignedXo {w : Word} (h : w.extractLsb' 26 6 = 4#6) (hxo : opRow? (w.extractLsb' 2 9).toNat = none) :
    decodeWord w = .error .unassignedXo := by
  rw [← xo_eq_toNat] at hxo
  simp [decodeWord, opcd_eq_four_iff.2 h, hxo]

/-- The decoder on just the bytes of a word. -/
theorem decode_bytesOfWord_nil (w : Word) : decode (bytesOfWord w) = (decodeWord w).map fun i => (i, []) := by
  simpa using decode_bytesOfWord w []

/-- Two words with the same bytes are the same word. -/
theorem bytesOfWord_inj {v w : Word} : bytesOfWord v = bytesOfWord w ↔ v = w := by
  refine ⟨fun h => ?_, congrArg bytesOfWord⟩
  simp only [bytesOfWord, List.cons.injEq, and_true] at h
  obtain ⟨h0, h1, h2, h3⟩ := h
  rw [← wordOfBytes_bytesOfWord v, h0, h1, h2, h3, wordOfBytes_bytesOfWord]

/-- What a table word decodes to, its low bits taken as a word. -/
theorem decodeTableWord_eq_some_iff {nbits w : Nat} {i : Instr} :
    decodeTableWord nbits w = some i ↔ decodeWord (BitVec.ofNat 32 (w % 2 ^ nbits)) = .ok i := by
  rw [decodeTableWord, decode_bytesOfWord_nil]
  cases decodeWord (BitVec.ofNat 32 (w % 2 ^ nbits)) <;> simp [Except.map]

end Sys2Proof

namespace Sys2Proof.Machine

/-- The word `w` stands at pc: pc is a multiple of 4 from the base of the text up, and the four bytes of the text from there are those of `w` (70_reset_and_hazards.md R276). -/
structure WordAtPc (s : State) (w : Word) : Prop where
  aligned : s.pc.toNat % 4 = 0
  fromBase : s.text.base.toNat ≤ s.pc.toNat
  bytes : (s.text.bytes.drop (s.pc.toNat - s.text.base.toNat)).take 4 = bytesOfWord w

section
variable {s : State} {w : Word} {i : Instr}

/-- The bytes of a whole word end inside the text. -/
theorem WordAtPc.end_le (h : WordAtPc s w) : s.pc.toNat + 4 ≤ s.text.base.toNat + s.text.bytes.length := by
  have hlen := congrArg List.length h.bytes
  have hbase := h.fromBase
  simp only [List.length_take, List.length_drop, bytesOfWord, List.length_cons, List.length_nil] at hlen
  omega

/-- Fetching finds the word at pc. -/
theorem WordAtPc.fetch_eq (h : WordAtPc s w) : fetch s = .ok (bytesOfWord w) := by
  have hend := h.end_le
  rw [fetch, if_neg (by omega), if_pos ⟨h.aligned, h.fromBase, hend⟩, h.bytes]

/-- A word at pc that spells no instruction is refused. -/
theorem step_of_decode_error (h : WordAtPc s w) {e : DecodeError} (hd : decodeWord w = .error e) :
    step s = .refused (decodeRefusal e) := by
  simp only [step, h.fetch_eq, decode_bytesOfWord_nil, hd, Except.map]

/-- A word at pc that decodes runs, unless it is refused for an unused field. -/
theorem step_of_decode_ok (h : WordAtPc s w) (hd : decodeWord w = .ok i) :
    step s = if unusedRefused s i (bytesOfWord w) then .refused .unusedFieldNonzero else exec i s := by
  simp only [step, h.fetch_eq, decode_bytesOfWord_nil, hd, Except.map]

/-- When a word that decodes is refused: under UNUSED_FIELDS = refuse_nonzero, for a nonzero field that its instruction does not use (30_encoding.md R98). -/
theorem unusedRefused_iff (hd : decodeWord w = .ok i) :
    unusedRefused s i (bytesOfWord w) = true ↔ s.params.unusedFields = .refuseNonzero ∧ UnusedNonzero i w := by
  simp [unusedRefused, encodeBytes, bytesOfWord_inj, ← encode_ne_iff hd]

/-- A word at pc that is not refused for an unused field is run. -/
theorem step_eq_exec (h : WordAtPc s w) (hd : decodeWord w = .ok i) (hu : s.params.unusedFields = .ignore ∨ ¬UnusedNonzero i w) :
    step s = exec i s := by
  rw [step_of_decode_ok h hd, if_neg]
  rw [unusedRefused_iff hd]
  rintro ⟨hrefuse, hnonzero⟩
  rcases hu with hignore | hzero
  · simp [hignore] at hrefuse
  · exact hzero hnonzero

/-- A step is a refusal or the run of one instruction. -/
theorem step_refused_or_exec (s : State) : (∃ r, step s = .refused r) ∨ ∃ i, step s = exec i s := by
  unfold step
  split
  · exact .inl ⟨_, rfl⟩
  · split
    · exact .inl ⟨_, rfl⟩
    · split
      · exact .inl ⟨_, rfl⟩
      · exact .inr ⟨_, rfl⟩

end

/-- Settles O4: the word at pc runs. -/
theorem stepRunsDecodedInstruction : Obligations.StepRunsDecodedInstruction :=
  fun _ _ _ hpc hbase hbytes => step_eq_exec ⟨hpc, hbase, hbytes⟩

/-- A word loaded by `withFetchWord` stands at pc. -/
theorem wordAtPc_withFetchWord (s : State) (nbits w : Nat) : WordAtPc (s.withFetchWord nbits w) (BitVec.ofNat 32 (w % 2 ^ nbits)) where
  aligned := by
    rw [State.withFetchWord_pc, BitVec.toNat_ofNat]
    omega
  fromBase := le_rfl
  bytes := by simp [bytesOfWord]

/-- Settles O5: the loaded word stands at pc, and loading keeps the parameters. -/
theorem loadedWordRunsNext : Obligations.LoadedWordRunsNext :=
  fun s nbits w _ hignore hd => step_eq_exec (wordAtPc_withFetchWord s nbits w) (decodeTableWord_eq_some_iff.1 hd) (.inl hignore)

/-- At the first address past the text the run has ended (70_reset_and_hazards.md R277). -/
theorem step_runEnded {s : State} (h : s.pc.toNat = s.text.base.toNat + s.text.bytes.length) : step s = .refused .runEnded := by
  rw [step, fetch, if_pos h]

/-- Any other pc where no whole aligned word of the text stands is outside it (70_reset_and_hazards.md R276). -/
theorem step_outsideText {s : State} (hend : s.pc.toNat ≠ s.text.base.toNat + s.text.bytes.length)
    (h : s.pc.toNat < s.text.base.toNat ∨ s.text.base.toNat + s.text.bytes.length < s.pc.toNat + 4 ∨ s.pc.toNat % 4 ≠ 0) :
    step s = .refused .outsideText := by
  rw [step, fetch, if_neg hend, if_neg (by omega)]

/-- Settles O6: what `fetch` refuses by where pc stands, and what a word at pc is refused for. -/
theorem stepStopsWhereNoInstructionStands : Obligations.StepStopsWhereNoInstructionStands := by
  intro s
  refine ⟨step_runEnded, step_outsideText, fun w hpc hbase hbytes => ?_⟩
  have hw : WordAtPc s w := ⟨hpc, hbase, hbytes⟩
  refine ⟨fun h => step_of_decode_error hw (decodeWord_notFxv h),
    fun h hxo => step_of_decode_error hw (decodeWord_unassignedXo h hxo), fun i hd hrefuse hnonzero => ?_⟩
  rw [step_of_decode_ok hw hd, if_pos ((unusedRefused_iff hd).2 ⟨hrefuse, hnonzero⟩)]

end Sys2Proof.Machine
end

section
/-! SUPPORT. Register views, the halfword condition of a mixed field, and the rest of the element-wise families: the statements that rest on a parameter or a decision of the spec. -/

namespace Sys2Proof.Machine

/-- Settles O7: a halfword is two bytes and an accumulator word two halfwords (`lane_append`); the bit positions are those of a lane. -/
theorem registerViewsAlias : Obligations.RegisterViewsAlias := by
  constructor
  · intro v i hi
    have hhalf : 128 - 16 * (i + 1) = 112 - 16 * i := by omega
    have hbyte : 128 - 8 * (2 * i + 1) = 120 - 16 * i := by omega
    exact ⟨lane_append (w := 8) (n := 8) v v (fun _ => rfl) hi, by rw [halfOf, lane, hhalf], by rw [byteOf, lane, hbyte]⟩
  · intro v i hi
    have hword : 256 - 32 * (i + 1) = 224 - 32 * i := by omega
    exact ⟨lane_append (w := 16) (n := 8) v v (fun _ => rfl) hi, by rw [accWordOf, lane, hword]⟩

/-- Settles O9: two bits that differ make the field mixed, and a mixed field reads as VCR_HW_READ says. -/
theorem mixedFieldReadFollowsParameter : Obligations.MixedFieldReadFollowsParameter := by
  intro p r k v i c a q q' hc hq hq' hne
  have hmixed : fieldMixed c v i = true := fieldMixed_iff.2 ⟨a, hc, q, hq, q', hq', hne⟩
  refine ⟨fun hp => ?_, fun hp => ?_, fun hp => ?_⟩ <;> simp [condH, hc, hmixed, hp]

/-- Settles O13: fxvmatachm (R122) and fxvmatacbm (R142) are the two writes of the accumulator applied to a * b + m, read as integers. -/
theorem multiplyAccumulateToAccModuloResult : Obligations.MultiplyAccumulateToAccModuloResult :=
  ⟨fun _ _ _ _ => ⟨⟨rfl, rfl⟩, halfToAcc_written_of_readable⟩,
    fun _ _ _ _ => ⟨⟨rfl, rfl⟩, byteToAcc_written⟩⟩

/-- Settles O15: fxvmultachm (R124) and fxvmultacbm (R144) are the two writes of the accumulator applied to a * b, read as integers. -/
theorem multiplyToAccModuloResult : Obligations.MultiplyToAccModuloResult :=
  ⟨fun _ _ _ _ => ⟨⟨rfl, rfl⟩, halfToAcc_written_of_readable⟩,
    fun _ _ _ _ => ⟨⟨rfl, rfl⟩, byteToAcc_written⟩⟩

/-- The element extended by the sign or by zero, as MTAC_EXTEND says (D8). -/
theorem mtacExt_eq_ite (p : Config.Params) {n : Nat} (x : BitVec n) :
    mtacExt p x = if p.mtacExtend = .sign then x.signExtend (2 * n) else x.zeroExtend (2 * n) := by
  unfold mtacExt
  cases p.mtacExtend <;> rfl

/-- Settles O21: fxvmtach (R131) and fxvmtacb (R151) are the two writes of the accumulator applied to the extended element. -/
theorem moveToAccResult : Obligations.MoveToAccResult :=
  ⟨fun _ _ s => ⟨⟨rfl, rfl⟩, halfToAcc_written_of_eq fun _ _ => mtacExt_eq_ite (n := 16) s.params _⟩,
    fun _ _ s => ⟨⟨rfl, rfl⟩, byteToAcc_written_of_eq fun _ _ => mtacExt_eq_ite (n := 8) s.params _⟩⟩

/-! The saturating fractional add family as exact arithmetic, for every width n > 0: M is 2^(n-1), the element bound. -/

/-- The scale of FRACT_ALIGN (00_scope.md R18). -/
theorem fractScale_eq_ite (p : Config.Params) (n : Nat) : fractScale p n = if p.fractAlign = .left then 2 ^ n else 1 := by
  unfold fractScale
  cases p.fractAlign <;> rfl

/-- The powers of two of one width, in terms of the element bound. -/
theorem two_pow_eq_double {n : Nat} (hn : 0 < n) : (2 : Int) ^ n = 2 * 2 ^ (n - 1) := by
  rw [← pow_succ']; congr 1; omega

theorem two_pow_double_sub_one {n : Nat} (hn : 0 < n) : (2 : Int) ^ (2 * n - 1) = 2 ^ (n - 1) * 2 ^ n := by
  rw [← pow_add]; congr 1; omega

/-- Half the double width is at least the width: a sum of two elements needs no clamping there. -/
theorem two_pow_le_double {n : Nat} (hn : 0 < n) : (2 : Int) ^ n ≤ 2 ^ (2 * n - 1) :=
  pow_le_pow_right₀ (by decide) (by omega)

/-- An element times its scale fits double width, so extending is exact (00_scope.md R18). -/
theorem toInt_fext {n : Nat} (hn : 0 < n) (p : Config.Params) (x : BitVec n) : (fext p x).toInt = x.toInt * fractScale p n := by
  have hlow := x.le_toInt
  have hhigh := x.toInt_lt
  have hM : (0 : Int) < 2 ^ (n - 1) := by positivity
  have hP : (0 : Int) < 2 ^ n := by positivity
  have hscaled : -(2 ^ (n - 1) * 2 ^ n) ≤ x.toInt * fractScale p n ∧ x.toInt * fractScale p n < 2 ^ (n - 1) * 2 ^ n := by
    rw [fractScale_eq_ite]
    split
    · exact ⟨by nlinarith, by nlinarith⟩
    · exact ⟨by nlinarith, by nlinarith⟩
  rw [← two_pow_double_sub_one hn] at hscaled
  exact BitVec.toInt_ofInt_eq_self (by omega) hscaled.1 hscaled.2

/-- A number inside the signed range is not clamped. -/
theorem clamp_of_inRange {N : Nat} {z : Int} (h : -2 ^ (N - 1) ≤ z) (h' : z < 2 ^ (N - 1)) : clamp N z = z := by
  unfold clamp
  omega

/-- The upper half of a clamped double-width number is the clamped upper half. -/
theorem clamp_double_ediv {n : Nat} (hn : 0 < n) (z : Int) : clamp (2 * n) z / 2 ^ n = clamp n (z / 2 ^ n) := by
  have hP : (0 : Int) < 2 ^ n := by positivity
  have hmono : Monotone fun y : Int => y / 2 ^ n := fun _ _ h => Int.ediv_le_ediv hP h
  have hlow : -(2 ^ (n - 1) * 2 ^ n) / (2 : Int) ^ n = -2 ^ (n - 1) := by
    rw [← neg_mul, Int.mul_ediv_cancel _ hP.ne']
  have hhigh : (2 ^ (n - 1) * 2 ^ n - 1) / (2 : Int) ^ n = 2 ^ (n - 1) - 1 := by
    rw [sub_eq_add_neg, add_comm, Int.add_mul_ediv_right _ _ hP.ne', Int.ediv_eq_neg_one_of_neg_of_le (by decide) (by omega)]
    omega
  unfold clamp
  rw [two_pow_double_sub_one hn]
  calc max (-(2 ^ (n - 1) * 2 ^ n)) (min z (2 ^ (n - 1) * 2 ^ n - 1)) / (2 : Int) ^ n
      = max (-(2 ^ (n - 1) * 2 ^ n) / 2 ^ n) (min (z / 2 ^ n) ((2 ^ (n - 1) * 2 ^ n - 1) / 2 ^ n)) :=
        hmono.map_max.trans (congrArg _ hmono.map_min)
    _ = max (-2 ^ (n - 1)) (min (z / 2 ^ n) (2 ^ (n - 1) - 1)) := by rw [hlow, hhigh]

/-- The upper half of a clamped scaled sum of two elements: the element clamp under left alignment, no clamp under right. -/
theorem clamp_fractScale_ediv {n : Nat} (hn : 0 < n) (p : Config.Params) {z : Int} (h : -2 ^ n ≤ z) (h' : z < 2 ^ n) :
    clamp (2 * n) (z * fractScale p n) / 2 ^ n = if p.fractAlign = .left then clamp n z else z / 2 ^ n := by
  have hle := two_pow_le_double hn
  rw [fractScale_eq_ite]
  split
  · rw [clamp_double_ediv hn, Int.mul_ediv_cancel _ (by positivity)]
  · rw [mul_one, clamp_of_inRange (by omega) (by omega)]

/-- An element plus a double-precision value, saturating, is the clamped exact sum. -/
theorem toInt_addSat_fext {n : Nat} (hn : 0 < n) (p : Config.Params) (a : BitVec n) (m : BitVec (2 * n)) :
    (addSat (fext p a) m).toInt = clamp (2 * n) (a.toInt * (if p.fractAlign = .left then 2 ^ n else 1) + m.toInt) := by
  rw [toInt_addSat (by omega), toInt_fext hn, fractScale_eq_ite]

theorem addSat_fext_eq_ofInt {n : Nat} (hn : 0 < n) (p : Config.Params) (a : BitVec n) (m : BitVec (2 * n)) :
    addSat (fext p a) m = BitVec.ofInt (2 * n) (clamp (2 * n) (a.toInt * (if p.fractAlign = .left then 2 ^ n else 1) + m.toInt)) := by
  rw [← toInt_addSat_fext hn, BitVec.ofInt_toInt]

/-- The upper half of that sum. -/
theorem upper_addSat_fext {n : Nat} (hn : 0 < n) (p : Config.Params) (a : BitVec n) (m : BitVec (2 * n)) :
    upper (addSat (fext p a) m) = BitVec.ofInt n (if p.fractAlign = .left then clamp n (a.toInt + m.toInt / 2 ^ n)
      else clamp (2 * n) (a.toInt + m.toInt) / 2 ^ n) := by
  rw [upper_eq_ofInt, toInt_addSat_fext hn]
  split
  · rw [clamp_double_ediv hn, add_comm, Int.add_mul_ediv_right _ _ (by positivity), add_comm]
  · rw [mul_one]

/-- The upper half of the saturating sum of two elements. -/
theorem upper_addSat_fext_fext {n : Nat} (hn : 0 < n) (p : Config.Params) (a b : BitVec n) :
    upper (addSat (fext p a) (fext p b)) =
      BitVec.ofInt n (if p.fractAlign = .left then clamp n (a.toInt + b.toInt) else (a.toInt + b.toInt) / 2 ^ n) := by
  have hdouble := two_pow_eq_double hn
  have ha := a.le_toInt
  have ha' := a.toInt_lt
  have hb := b.le_toInt
  have hb' := b.toInt_lt
  rw [upper_eq_ofInt, toInt_addSat (by omega), toInt_fext hn, toInt_fext hn, ← add_mul, clamp_fractScale_ediv hn p (by omega) (by omega)]

/-- The number that stands for `-(VRB)` reaches 2^(n-1) at most (D10). -/
theorem negated_bounds {n : Nat} (p : Config.Params) (x : BitVec n) : -2 ^ (n - 1) ≤ negated p x ∧ negated p x ≤ 2 ^ (n - 1) := by
  have hx := x.le_toInt
  have hx' := x.toInt_lt
  unfold negated
  split
  · omega
  · exact ⟨BitVec.le_toInt _, BitVec.toInt_lt.le⟩

/-- The upper half of the saturating difference of two elements. -/
theorem upper_subSatFract {n : Nat} (hn : 0 < n) (p : Config.Params) (a b : BitVec n) :
    upper (subSatFract p a b) =
      BitVec.ofInt n (if p.fractAlign = .left then clamp n (a.toInt + negated p b) else (a.toInt + negated p b) / 2 ^ n) := by
  have hdouble := two_pow_eq_double hn
  have ha := a.le_toInt
  have ha' := a.toInt_lt
  obtain ⟨hb, hb'⟩ := negated_bounds p b
  rw [upper_eq_ofInt, subSatFract, toInt_sat (by omega), clamp_fractScale_ediv hn p (by omega) (by omega)]

/-- Settles O28: fxvaddactachf (R167) and fxvaddactacbf (R187) are the two writes of the accumulator applied to the saturating sum. -/
theorem addAccToAccFractResult : Obligations.AddAccToAccFractResult :=
  ⟨fun _ _ s => ⟨⟨rfl, rfl⟩, halfToAcc_written_of_eq fun _ _ => addSat_fext_eq_ofInt (n := 16) (by decide) s.params _ _⟩,
    fun _ _ s => ⟨⟨rfl, rfl⟩, byteToAcc_written_of_eq fun _ _ => addSat_fext_eq_ofInt (n := 8) (by decide) s.params _ _⟩⟩

/-- Settles O29: fxvaddachfs (R168) and fxvaddacbfs (R188) are the two writes of VRT applied to the upper half of the sum with the accumulator. -/
theorem addAccFractResult : Obligations.AddAccFractResult :=
  ⟨fun _ _ _ s => ⟨⟨rfl, rfl⟩, halfToReg_written_of_eq fun _ _ => upper_addSat_fext (n := 16) (by decide) s.params _ _⟩,
    fun _ _ _ s => ⟨⟨rfl, rfl⟩, byteToReg_written_of_eq fun _ _ => upper_addSat_fext (n := 8) (by decide) s.params _ _⟩⟩

/-- Settles O30: fxvaddhfs (R169) and fxvaddbfs (R189) are the two writes of VRT applied to the upper half of the sum of two elements. -/
theorem addFractResult : Obligations.AddFractResult :=
  ⟨fun _ _ _ _ s => ⟨⟨rfl, rfl⟩, halfToReg_written_of_eq fun _ _ => upper_addSat_fext_fext (n := 16) (by decide) s.params _ _⟩,
    fun _ _ _ _ s => ⟨⟨rfl, rfl⟩, byteToReg_written_of_eq fun _ _ => upper_addSat_fext_fext (n := 8) (by decide) s.params _ _⟩⟩

/-- Settles O27: fxvsubhfs (R166) and fxvsubbfs (R186) are the two writes of VRT applied to the upper half of the difference, read under each value of FRACT_ALIGN and SUBFS_NEG. -/
theorem subtractFractResult : Obligations.SubtractFractResult := by
  constructor
  · intro vrt vra vrb c s
    refine ⟨⟨rfl, rfl⟩, halfToReg_written_of_eq fun sl i => ?_⟩
    rw [upper_subSatFract (n := 16) (by decide), negated, trunc]
    cases s.params.fractAlign <;> cases s.params.subfsNeg <;> rfl
  · intro vrt vra vrb c s
    refine ⟨⟨rfl, rfl⟩, byteToReg_written_of_eq fun sl j => ?_⟩
    rw [upper_subSatFract (n := 8) (by decide), negated, trunc]
    cases s.params.fractAlign <;> cases s.params.subfsNeg <;> rfl

end Sys2Proof.Machine
end

section
/-! SUPPORT. What a compare leaves in the condition register (10_state.md R36, R37), bit by bit and as the two properties of a consistent VCR, and the statements about it. -/

namespace Sys2Proof.Machine

/-- The bit of area a for nibble q of halfword element i stands at 12 i + 4 a + q (10_state.md R36). -/
theorem vcrPos_half (a : Area) (i : Nat) {q : Nat} (hq : q < 4) : vcrPos a (4 * i + q) = 12 * i + 4 * areaIndex a + q := by
  unfold vcrPos
  omega

/-- The bits of one halfword element in the raw layout. -/
theorem getMsbD_half (v : VcrBits) (a : Area) (i : Nat) {q : Nat} (hq : q < 4) :
    v.getMsbD (12 * i + 4 * areaIndex a + q) = vcrBit v a (4 * i + q) := by
  rw [vcrBit, vcrPos_half a i hq]

/-- Settles O32: each nibble of halfword element i holds the comparison of that element, at the place of its area. -/
theorem compareWritesFieldLayout : Obligations.CompareWritesFieldLayout := by
  intro vra s t h
  obtain ⟨-, rfl⟩ := writeVcr_next_iff.1 h
  refine eachSlice_mapSlices fun _ sl i hi q hq => ?_
  have hbit (a : Area) : (ofVcrBits fun a k => compareZero a (sl.hInt vra (k / 4))).getMsbD (12 * i + 4 * areaIndex a + q) =
      compareZero a (sl.hInt vra i) := by
    rw [getMsbD_half _ a i hq, vcrBit_ofVcrBits _ a (by omega), Nat.mul_add_div (by decide), Nat.div_eq_of_lt hq, Nat.add_zero]
  exact ⟨hbit .eq, hbit .gt, hbit .lt⟩

/-- Some comparison with zero holds. -/
theorem exists_compareZero (z : Int) : ∃ a, compareZero a z = true := by
  rcases lt_trichotomy z 0 with h | h | h
  · exact ⟨.lt, decide_eq_true h⟩
  · exact ⟨.eq, decide_eq_true h⟩
  · exact ⟨.gt, decide_eq_true h⟩

/-- A VCR made of comparisons, from elements that the two nibbles of a byte share, has equal bits for each byte element. -/
theorem vcrPaired_compare {f : Nat → Int} (hf : ∀ j, f (2 * j) = f (2 * j + 1)) : VcrPaired (ofVcrBits fun a k => compareZero a (f k)) := by
  intro a j hj
  rw [vcrBit_ofVcrBits _ a (by omega), vcrBit_ofVcrBits _ a (by omega), hf]

/-- A VCR made of comparisons has no two bits of a nibble set. -/
theorem vcrExclusive_compare (f : Nat → Int) : VcrExclusive (ofVcrBits fun a k => compareZero a (f k)) := by
  intro a a' k hk h h'
  rw [vcrBit_ofVcrBits _ _ hk] at h h'
  exact compareZero_unique h h'

/-- A VCR made of comparisons has a bit of every nibble set. -/
theorem exists_vcrBit_compare (f : Nat → Int) {k : Nat} (hk : k < 32) : ∃ a, vcrBit (ofVcrBits fun a k => compareZero a (f k)) a k = true := by
  obtain ⟨a, ha⟩ := exists_compareZero (f k)
  exact ⟨a, by rw [vcrBit_ofVcrBits _ a hk, ha]⟩

/-- Settles O33: the only effect of an instruction that writes the VCR is to make it of comparisons. -/
theorem compareSetsExactlyOneBitPerNibble : Obligations.CompareSetsExactlyOneBitPerNibble := by
  intro i s t hi h
  obtain ⟨-, u, hu, rfl⟩ := exec_next_effect h
  cases hu with
  | vcr _ _ f hf =>
    exact eachSlice_mapSlices fun _ sl => ⟨vcrPaired_compare (hf sl), vcrExclusive_compare (f sl), fun _ hk => exists_vcrBit_compare (f sl) hk⟩
  | reg hc => cases hi.symm.trans hc
  | acc hc => cases hi.symm.trans hc
  | store _ _ _ e => cases e; cases hi
  | input _ _ _ e => cases e; cases hi
  | output _ _ _ e => cases e; cases hi

end Sys2Proof.Machine
end

section
/-! SUPPORT. The permute family (44_permute.md): the shifts, the packs under every reading of their parameters, and the unpacks. -/

namespace Sys2Proof.Machine

/-- `shift_left` is the shift of bit vectors (00_scope.md R13). -/
theorem shiftLeft_eq {N : Nat} (x : BitVec N) (n : Nat) : shiftLeft x n = x <<< n := by
  apply BitVec.eq_of_toNat_eq
  rw [shiftLeft, BitVec.toNat_ofNat, BitVec.toNat_shiftLeft, Nat.shiftLeft_eq]

/-- A shift by the width or more leaves nothing (D30). -/
theorem shiftLeft_eq_ite {N : Nat} (x : BitVec N) (n : Nat) : shiftLeft x n = if n < N then x <<< n else 0 := by
  rw [shiftLeft_eq]
  split
  · rfl
  · exact BitVec.shiftLeft_eq_zero (by omega)

/-- `shift_right` is the logical shift of bit vectors (00_scope.md R13). -/
theorem shiftRight_eq {N : Nat} (x : BitVec N) (n : Nat) : shiftRight x n = x >>> n := by
  apply BitVec.eq_of_toNat_eq
  have hx : x.toNat / 2 ^ n < 2 ^ N := lt_of_le_of_lt (Nat.div_le_self _ _) x.isLt
  rw [shiftRight, BitVec.toNat_ofNat, Nat.mod_eq_of_lt hx, BitVec.toNat_ushiftRight, Nat.shiftRight_eq_div_pow]

/-- The unconditional write of halfwords, for a result stated by another term than the instruction's meaning. -/
theorem writeReg_ofHalves_written_of_eq {vrt : VReg} {f g : Slice → Nat → Half} {s : State} (hfg : ∀ sl i, f sl i = g sl i) (hp : PcFits s) :
    ∃ t, writeReg vrt (fun _ sl => ofHalves (f sl)) s = .next t ∧ OnlySlicesChange s t ∧ RegHalvesAre s t vrt g :=
  funext₂ hfg ▸ writeReg_ofHalves_written hp

/-- The unconditional write of bytes, for a result stated by another term than the instruction's meaning. -/
theorem writeReg_ofBytes_written_of_eq {vrt : VReg} {f g : Slice → Nat → Byte} {s : State} (hfg : ∀ sl j, f sl j = g sl j) (hp : PcFits s) :
    ∃ t, writeReg vrt (fun _ sl => ofBytes (f sl)) s = .next t ∧ OnlySlicesChange s t ∧ RegBytesAre s t vrt fun _ => g :=
  funext₂ hfg ▸ writeReg_ofBytes_written hp

/-- Settles O36: fxvshh (R202) and fxvshb (R203) are the unconditional writes of the shifted elements. -/
theorem shiftResult : Obligations.ShiftResult :=
  ⟨fun _ _ amount _ => ⟨⟨rfl, rfl⟩, writeReg_ofHalves_written_of_eq fun _ _ => shiftLeft_eq_ite _ amount⟩,
    fun _ _ amount _ => ⟨⟨rfl, rfl⟩, writeReg_ofBytes_written_of_eq fun _ _ => shiftLeft_eq_ite _ amount⟩⟩

/-- Settles O37: fxvpckbu (R204) is the unconditional write of the shifted upper bytes. -/
theorem packUpperResult : Obligations.PackUpperResult :=
  fun _ _ _ _ _ => ⟨⟨rfl, rfl⟩, writeReg_ofBytes_written_of_eq fun _ _ => by rw [shiftRight_eq, shiftRight_eq]⟩

/-- The reading of PACK_MASK a state has: that of the hardware where it is unsettled (44_permute.md R205, D12). -/
def packNarrow (p : Config.Params) : Bool := decide (packMaskConst p = 0xff)

/-- PACK_MASK is one of the two constants, the one its value names. -/
theorem packMaskConst_eq_ite (p : Config.Params) : packMaskConst p = if packNarrow p then 0xff else 0xffff := by
  unfold packNarrow packMaskConst
  cases p.packMask <;> cases Config.packMaskIsNarrow <;> rfl

theorem packNarrow_of_wide {p : Config.Params} (h : p.packMask = .wide) : packNarrow p = false := by
  simp [packNarrow, packMaskConst, h]

theorem packNarrow_of_narrow {p : Config.Params} (h : p.packMask = .narrow) : packNarrow p = true := by
  simp [packNarrow, packMaskConst, h]

theorem packSymmetric_of_literal {p : Config.Params} (h : p.pckblSecond = .literal) : packSymmetric p = false := by
  simp [packSymmetric, h]

theorem packSymmetric_of_symmetric {p : Config.Params} (h : p.pckblSecond = .symmetric) : packSymmetric p = true := by
  simp [packSymmetric, h]

/-- fxvpckbl is refused exactly under `onGap = stop` with a parameter unsettled, and else writes VRT (44_permute.md R205). -/
theorem exec_fxvpckbl_of_settled {vrt vra vrb : VReg} {n : Nat} {s : State}
    (h : s.params.onGap = .freeValue ∨ (s.params.packMask ≠ .unsettled ∧ s.params.pckblSecond ≠ .unsettled)) :
    exec (.fxvpckbl vrt vra vrb n) s = writeReg vrt (fun _ sl => ofBytes fun j =>
      if j < 8 then packLower s.params (sl.h vra j) n
      else if packSymmetric s.params then packLower s.params (sl.h vrb (j - 8)) n
      else shiftRight (sl.b vrb (2 * (j - 8))) n) s := by
  refine if_neg ?_
  rintro ⟨hstop, hunsettled⟩
  rcases h with hfree | ⟨hmask, hsecond⟩
  · cases hfree.symm.trans hstop
  · exact hunsettled.elim hmask hsecond

/-- Settles O38: fxvpckbl (R205) writes its bytes under the reading of each parameter that the state has. -/
theorem packLowerResult : Obligations.PackLowerResult := by
  intro vrt vra vrb n s
  refine ⟨⟨rfl, rfl⟩, fun hp hsettled => ?_⟩
  rw [exec_fxvpckbl_of_settled hsettled]
  refine (writeReg_ofBytes_written_of_eq (fun sl j => ?_) hp).imp fun t ⟨hnext, honly, hbytes⟩ => ⟨hnext, honly,
    packNarrow s.params, packSymmetric s.params, packNarrow_of_wide, packNarrow_of_narrow, packSymmetric_of_literal,
    packSymmetric_of_symmetric, hbytes⟩
  simp only [packLower, trunc, packMaskConst_eq_ite, shiftRight_eq]
  rfl

/-- Settles O39: with gaps free the two unpacks (R206, R207) are unconditional writes of VRT, whatever the value. -/
theorem unpackWritesOnlyTarget : Obligations.UnpackWritesOnlyTarget := by
  intro vrt vra vrb n s
  refine ⟨⟨rfl, rfl⟩, ⟨rfl, rfl⟩, fun hp hfree => ?_⟩
  have hgo : ¬s.params.onGap = .stop := by simp [hfree]
  have hwritten (f : Nat → Slice → VecBits) : ∃ t, writeReg vrt f s = .next t ∧ OnlySlicesChange s t ∧
      EachSlice s t fun _ sl tl => OnlyRegChanges vrt sl tl := by
    obtain ⟨t, hnext, heach, honly⟩ := writeReg_written (vrt := vrt) (f := f) hp
    exact ⟨t, hnext, honly, heach.mono fun _ _ _ h => h.2⟩
  simp only [exec, execFxvupckbl, execFxvupckbr, if_neg hgo]
  exact ⟨hwritten _, hwritten _⟩

/-- Settles O57: the two refusals of the family stand before the write (D12, D31). -/
theorem packLowerAndUnpackRefusedUnderStop : Obligations.PackLowerAndUnpackRefusedUnderStop :=
  fun _ _ _ _ _ hstop => ⟨fun hunsettled => if_pos ⟨hstop, hunsettled⟩, if_pos hstop, if_pos hstop⟩

end Sys2Proof.Machine
end

section
/-! SUPPORT. The load/store family (45_load_store.md, 20_memory.md): the effective address, when each instruction completes and with what, where it stops, and the statements about it. -/

namespace Sys2Proof.Machine

/-- Settles O40: with an RA field of 0 there is no base; the sum is that of 32 bit words. -/
theorem effectiveAddressResult : Obligations.EffectiveAddressResult := by
  intro s ra rb
  constructor
  · rintro rfl
    simp [effectiveAddress, State.x]
  · intro hra
    simp [effectiveAddress, State.x, hra]

section
variable {vrt : VReg} {ra rb : GReg} {s t : State}

/-- A load whose address checks name a refusal ends in it. -/
theorem exec_fxvlax_refused {r : Refusal} (h : memCheck s (effectiveAddress s ra rb).toNat false = some r) :
    exec (.fxvlax vrt ra rb) s = .refused r := by
  simp only [exec, execFxvlax, h]

/-- A load that passes the address checks is an unconditional write of VRT. -/
theorem exec_fxvlax_passed (h : memCheck s (effectiveAddress s ra rb).toNat false = none) : exec (.fxvlax vrt ra rb) s =
    writeReg vrt (fun k _ => s.mem.readVec s.params.byteOrder ((effectiveAddress s ra rb).toNat + 16 * k)) s := by
  simp only [exec, execFxvlax, h]

/-- A store whose address checks name a refusal ends in it. -/
theorem exec_fxvstax_refused {r : Refusal} (h : memCheck s (effectiveAddress s ra rb).toNat true = some r) :
    exec (.fxvstax vrt ra rb) s = .refused r := by
  simp only [exec, execFxvstax, h]

/-- A store that passes the address checks writes the registers of all slices. -/
theorem exec_fxvstax_passed (h : memCheck s (effectiveAddress s ra rb).toNat true = none) : exec (.fxvstax vrt ra rb) s =
    (s.setMem (s.mem.writeVecs s.params.byteOrder (effectiveAddress s ra rb).toNat (s.slices.map fun sl => sl.reg vrt))).finish := by
  simp only [exec, execFxvstax, h]

/-- An input from a location that does not exist is refused. -/
theorem exec_fxvinx_refused (h : ¬Exists s.platform.io (effectiveAddress s ra rb).toNat) : exec (.fxvinx vrt ra rb) s = .refused .unmapped :=
  if_neg (mt inRegions_iff.1 h)

/-- An input from a location that exists logs the device's answers and writes them to VRT. -/
theorem exec_fxvinx_passed (h : Exists s.platform.io (effectiveAddress s ra rb).toNat) : exec (.fxvinx vrt ra rb) s =
    writeReg vrt (fun k _ => Config.ioOracle s.retired s.ioLog (effectiveAddress s ra rb) k)
      (s.logIo (.read (effectiveAddress s ra rb) ((List.range s.numSlices).map fun k =>
        Config.ioOracle s.retired s.ioLog (effectiveAddress s ra rb) k))) :=
  if_pos (inRegions_iff.2 h)

/-- An output to a location that does not exist is refused. -/
theorem exec_fxvoutx_refused (h : ¬Exists s.platform.io (effectiveAddress s ra rb).toNat) : exec (.fxvoutx vrt ra rb) s = .refused .unmapped :=
  if_neg (mt inRegions_iff.1 h)

/-- An output to a location that exists logs the registers of all slices. -/
theorem exec_fxvoutx_passed (h : Exists s.platform.io (effectiveAddress s ra rb).toNat) : exec (.fxvoutx vrt ra rb) s =
    (s.logIo (.write (effectiveAddress s ra rb) (s.slices.map fun sl => sl.reg vrt))).finish :=
  if_pos (inRegions_iff.2 h)

/-- Everything fxvlax can answer as a next state. -/
theorem exec_fxvlax_next_iff : exec (.fxvlax vrt ra rb) s = .next t ↔ AccessOk s (effectiveAddress s ra rb).toNat ∧ PcFits s ∧
    t = (s.mapSlices fun k sl => sl.setReg vrt
      (s.mem.readVec s.params.byteOrder ((effectiveAddress s ra rb).toNat + 16 * k))).advance := by
  rw [← memCheck_load_iff]
  cases h : memCheck s (effectiveAddress s ra rb).toNat false with
  | some r => simp [exec_fxvlax_refused h]
  | none => simp [exec_fxvlax_passed h, writeReg_next_iff]

/-- Everything fxvstax can answer as a next state. -/
theorem exec_fxvstax_next_iff : exec (.fxvstax vrt ra rb) s = .next t ↔
    (AccessOk s (effectiveAddress s ra rb).toNat ∧ ClearOfText s (effectiveAddress s ra rb).toNat) ∧ PcFits s ∧
    t = (s.setMem (s.mem.writeVecs s.params.byteOrder (effectiveAddress s ra rb).toNat (s.slices.map fun sl => sl.reg vrt))).advance := by
  rw [← memCheck_store_iff]
  cases h : memCheck s (effectiveAddress s ra rb).toNat true with
  | some r => simp [exec_fxvstax_refused h]
  | none => simp [exec_fxvstax_passed h, finish_next_iff, PcFits]

/-- Everything fxvinx can answer as a next state: the device's answers are logged and written. -/
theorem exec_fxvinx_next_iff : exec (.fxvinx vrt ra rb) s = .next t ↔ Exists s.platform.io (effectiveAddress s ra rb).toNat ∧ PcFits s ∧
    t = ((s.logIo (.read (effectiveAddress s ra rb) ((List.range s.numSlices).map fun k =>
      Config.ioOracle s.retired s.ioLog (effectiveAddress s ra rb) k))).mapSlices fun k sl => sl.setReg vrt
        (Config.ioOracle s.retired s.ioLog (effectiveAddress s ra rb) k)).advance := by
  by_cases h : Exists s.platform.io (effectiveAddress s ra rb).toNat
  · simp [exec_fxvinx_passed h, h, writeReg_next_iff, PcFits]
  · simp [exec_fxvinx_refused h, h]

/-- Everything fxvoutx can answer as a next state: the write is logged. -/
theorem exec_fxvoutx_next_iff : exec (.fxvoutx vrt ra rb) s = .next t ↔ Exists s.platform.io (effectiveAddress s ra rb).toNat ∧ PcFits s ∧
    t = (s.logIo (.write (effectiveAddress s ra rb) (s.slices.map fun sl => sl.reg vrt))).advance := by
  by_cases h : Exists s.platform.io (effectiveAddress s ra rb).toNat
  · simp [exec_fxvoutx_passed h, h, finish_next_iff, PcFits]
  · simp [exec_fxvoutx_refused h, h]

/-- What fxvlax leaves in VRT of each slice. -/
theorem eachSlice_of_exec_fxvlax (h : exec (.fxvlax vrt ra rb) s = .next t) : EachSlice s t fun k _ tl =>
    tl.reg vrt = s.mem.readVec s.params.byteOrder ((effectiveAddress s ra rb).toNat + 16 * k) := by
  obtain ⟨-, -, rfl⟩ := exec_fxvlax_next_iff.1 h
  exact eachSlice_mapSlices fun _ sl => Slice.reg_setReg_self sl vrt _

end

/-- Under a big-endian BYTE_ORDER byte j of a register is the j-th of its sixteen bytes in memory. -/
theorem byteIndex_big (j : Nat) : 4 * (j / 4) + byteIndex .big (j % 4) = j := Nat.div_add_mod j 4

/-- Settles O41: fxvlax writes VRT of slice k with the sixteen bytes at EA + 16 k, in the byte order of memory. -/
theorem loadArrayResult : Obligations.LoadArrayResult := by
  intro vrt ra rb s
  refine ⟨⟨rfl, rfl⟩, fun hp hok => ⟨_, exec_fxvlax_next_iff.2 ⟨hok, hp, rfl⟩, onlySlicesChange_mapSlices s _,
    eachSlice_mapSlices fun k sl => ⟨fun j hj => ?_, onlyRegChanges_setReg sl vrt _⟩⟩⟩
  rw [Slice.b, Slice.reg_setReg_self, byteOf_readVec _ _ _ hj, Nat.add_assoc _ (4 * (j / 4))]
  cases s.params.byteOrder
  · rw [byteIndex_big]
  · rfl

/-- A footprint that may be accessed ends inside the address space, also as that of the registers a store writes. -/
theorem AccessOk.end_le {s : State} {ea : Nat} (h : AccessOk s ea) (f : Slice → VecBits) :
    ea + 16 * (s.slices.map f).length ≤ addressLimit := by
  rw [List.length_map]
  exact h.1

/-- Settles O42: fxvstax writes the registers of all slices at EA and nothing else; the bytes are those of `read_writeVecs`. -/
theorem storeArrayResult : Obligations.StoreArrayResult := by
  intro vrt ra rb s
  refine ⟨⟨rfl, rfl⟩, fun hp hwf hok hclear => ⟨_, exec_fxvstax_next_iff.2 ⟨⟨hok, hclear⟩, hp, rfl⟩, rfl, rfl, rfl, rfl, rfl, rfl, ?_, ?_, ?_⟩⟩
  · exact Memory.wf_writeVecs _ _ (hok.end_le _) hwf
  · intro k sl hk j hj
    have hv : (s.slices.map fun sl => sl.reg vrt)[k]? = some (sl.reg vrt) := by simp [hk]
    simp only [State.advance_mem, State.setMem_mem]
    rw [Memory.read_writeVecs _ hj (hok.end_le _) hwf hv, Slice.b]
    cases s.params.byteOrder
    · rw [byteIndex_big]
    · rfl
  · intro a ha
    exact Memory.read_writeVecs_outside _ _ (by simpa using ha)

/-- Settles O43: the load reads the memory the store left, and reading back what was written gives the register (`readVec_writeVecs`). -/
theorem storeThenLoadReturnsRegister : Obligations.StoreThenLoadReturnsRegister := by
  intro vrt vrt' ra rb ra' rb' s t u hwf hea hstore hload
  obtain ⟨⟨hok, -⟩, -, rfl⟩ := exec_fxvstax_next_iff.1 hstore
  obtain ⟨hlength, hloaded⟩ := eachSlice_of_exec_fxvlax hload
  refine ⟨hlength, fun k sl ul hk hu => (hloaded k sl ul hk hu).trans ?_⟩
  have hv : (s.slices.map fun sl => sl.reg vrt)[k]? = some (sl.reg vrt) := by simp [hk]
  change (s.mem.writeVecs _ _ _).readVec _ ((effectiveAddress s ra' rb').toNat + 16 * k) = _
  rw [hea]
  exact readVec_writeVecs _ (hok.end_le _) hwf hv

/-! The address checks in the order of 60_exceptions.md R246. -/

section
variable {s : State} {ea : Nat}

theorem memCheck_addressWrap (isStore : Bool) (h : 2 ^ 32 < ea + 16 * s.slices.length) : memCheck s ea isStore = some .addressWrap :=
  if_pos h

theorem memCheck_misaligned (isStore : Bool) (hwrap : ea + 16 * s.slices.length ≤ 2 ^ 32) (h : ¬Aligned s ea) :
    memCheck s ea isStore = some .misalignedVectorAccess :=
  (if_neg hwrap.not_gt).trans (if_pos (mt aligned_iff.2 h))

/-- A footprint in the address space and aligned is judged by its bytes. -/
theorem memCheck_of_aligned (isStore : Bool) (hwrap : ea + 16 * s.slices.length ≤ 2 ^ 32) (ha : Aligned s ea) :
    memCheck s ea isStore = if !footprintMapped s ea then some .unmapped else if isStore && meetsText s ea then some .storeToCode else none :=
  (if_neg hwrap.not_gt).trans (if_neg (not_not.2 (aligned_iff.1 ha)))

theorem memCheck_unmapped (isStore : Bool) (hwrap : ea + 16 * s.slices.length ≤ 2 ^ 32) (ha : Aligned s ea)
    (h : ∃ k < 16 * s.slices.length, ¬Exists s.platform.ram (ea + k)) : memCheck s ea isStore = some .unmapped := by
  have hmap : footprintMapped s ea = false := by
    rw [Bool.eq_false_iff, Ne, footprintMapped_iff]
    push Not
    exact h
  simp [memCheck_of_aligned isStore hwrap ha, hmap]

theorem memCheck_storeToCode (hok : AccessOk s ea) (h : ¬ClearOfText s ea) : memCheck s ea true = some .storeToCode := by
  obtain ⟨hwrap, ha, hmap⟩ := hok
  rw [← meetsText_iff, Bool.not_eq_false] at h
  simp [memCheck_of_aligned true hwrap ha, footprintMapped_iff.2 hmap, h]

end

/-- Settles O44: the checks stand in this order, and either instruction ends in the refusal they name. -/
theorem loadStoreStopsInOrder : Obligations.LoadStoreStopsInOrder := by
  rintro vrt ra rb s ea rfl
  exact ⟨fun h => ⟨exec_fxvlax_refused (memCheck_addressWrap _ h), exec_fxvstax_refused (memCheck_addressWrap _ h)⟩,
    fun hwrap h => ⟨exec_fxvlax_refused (memCheck_misaligned _ hwrap h), exec_fxvstax_refused (memCheck_misaligned _ hwrap h)⟩,
    fun hwrap ha h => ⟨exec_fxvlax_refused (memCheck_unmapped _ hwrap ha h), exec_fxvstax_refused (memCheck_unmapped _ hwrap ha h)⟩,
    fun hok h => exec_fxvstax_refused (memCheck_storeToCode hok h)⟩

/-- Settles O45: the parts are the oracle's answers, one for each slice, which are logged and written. -/
theorem inputResult : Obligations.InputResult := by
  intro vrt ra rb s
  refine ⟨⟨rfl, rfl⟩, fun hp hio => ⟨_, _, exec_fxvinx_next_iff.2 ⟨hio, hp, rfl⟩, ?_, rfl, ?_, rfl, fun _ => rfl, rfl, rfl, rfl⟩⟩
  · simp [State.numSlices]
  · refine ⟨by simp, fun k sl tl hk ht => ?_⟩
    obtain ⟨hlt, -⟩ := List.getElem?_eq_some_iff.1 hk
    simp only [State.advance_slices, State.mapSlices_getElem?, State.logIo_slices, hk, Option.map_some, Option.some.injEq] at ht
    subst ht
    exact ⟨by simp [State.numSlices, hlt], onlyRegChanges_setReg sl vrt _⟩

/-- Settles O46: fxvoutx logs one write event and does nothing else. -/
theorem outputResult : Obligations.OutputResult :=
  fun _ _ _ _ => ⟨⟨rfl, rfl⟩, fun hp hio =>
    ⟨_, exec_fxvoutx_next_iff.2 ⟨hio, hp, rfl⟩, rfl, rfl, rfl, fun _ => rfl, rfl, rfl, rfl⟩⟩

/-- Settles O47: both IO instructions ask first whether the location exists. -/
theorem ioStopsAtMissingLocation : Obligations.IoStopsAtMissingLocation :=
  fun _ _ _ _ h => ⟨exec_fxvinx_refused h, exec_fxvoutx_refused h⟩

end Sys2Proof.Machine
end

section
/-! SUPPORT. What every instruction keeps: its effect (`exec_next_effect`) field by field, the statements about every next state, and the invariant. -/

namespace Sys2Proof.Machine

section
variable {i : Instr} {s u : State}

/-- Where the slices are the same list, each slice is as it was. -/
theorem eachSlice_of_slices_eq {t : State} {P : Nat → Slice → Slice → Prop} (h : t.slices = s.slices) (hP : ∀ k sl, P k sl sl) : EachSlice s t P := by
  refine ⟨congrArg List.length h, fun k sl tl hs ht => ?_⟩
  rw [h, hs, Option.some.injEq] at ht
  exact ht ▸ hP k sl

/-- No effect moves pc; advancing does. -/
theorem Effect.pc_eq (h : Effect i s u) : u.pc = s.pc := by
  cases h <;> rfl

/-- No effect counts an instruction; advancing does. -/
theorem Effect.retired_eq (h : Effect i s u) : u.retired = s.retired := by
  cases h <;> rfl

/-- No effect writes a general-purpose register, the text, the platform or the parameters, or makes or drops a slice. -/
theorem Effect.configuration_eq (h : Effect i s u) :
    u.gpr = s.gpr ∧ u.text = s.text ∧ u.platform = s.platform ∧ u.params = s.params ∧ u.slices.length = s.slices.length := by
  cases h <;> simp

/-- Only a store changes memory. -/
theorem Effect.mem_eq (h : Effect i s u) (hi : ∀ vrt ra rb, i ≠ .fxvstax vrt ra rb) : u.mem = s.mem := by
  cases h with
  | store vrt ra rb e => exact absurd e (hi vrt ra rb)
  | _ => rfl

/-- Only IO adds to the log. -/
theorem Effect.ioLog_eq (h : Effect i s u) (hi : ∀ vrt ra rb, i ≠ .fxvinx vrt ra rb ∧ i ≠ .fxvoutx vrt ra rb) : u.ioLog = s.ioLog := by
  cases h with
  | input vrt ra rb e => exact absurd e (hi vrt ra rb).1
  | output vrt ra rb e => exact absurd e (hi vrt ra rb).2
  | _ => rfl

/-- The VCR is left alone but by the compares, the accumulator but by the instructions named tac. -/
theorem Effect.eachSlice_keeps (h : Effect i s u) :
    EachSlice s u.advance fun _ sl tl => (writesVcr i = false → tl.vcr = sl.vcr) ∧ (writesAcc i = false → tl.acc = sl.acc) := by
  cases h with
  | reg => exact eachSlice_mapSlices fun _ _ => ⟨fun _ => rfl, fun _ => rfl⟩
  | acc _ ha => exact eachSlice_mapSlices fun _ _ => ⟨fun _ => rfl, fun hno => absurd (ha.symm.trans hno) (by decide)⟩
  | vcr hc => exact eachSlice_mapSlices fun _ _ => ⟨fun hno => absurd (hc.symm.trans hno) (by decide), fun _ => rfl⟩
  | store => exact eachSlice_of_slices_eq rfl fun _ _ => ⟨fun _ => rfl, fun _ => rfl⟩
  | input _ _ _ _ e => exact eachSlice_mapSlices (s := s.logIo e) fun _ _ => ⟨fun _ => rfl, fun _ => rfl⟩
  | output => exact eachSlice_of_slices_eq rfl fun _ _ => ⟨fun _ => rfl, fun _ => rfl⟩

/-- A store writes inside the address space, so every effect keeps memory in canonical form. -/
theorem Effect.mem_wf (h : Effect i s u) (hwf : s.mem.wf = true) : u.mem.wf = true := by
  cases h with
  | store _ _ _ _ hm =>
    obtain ⟨hok, -⟩ := memCheck_store_iff.1 hm
    exact Memory.wf_writeVecs _ _ (hok.end_le _) hwf
  | _ => exact hwf

/-- A slice after an operation done in every slice comes from a slice before it. -/
theorem forall_mem_mapSlices {f : Nat → Slice → Slice} {P : Slice → Prop} (h : ∀ k, ∀ sl ∈ s.slices, P (f k sl)) :
    ∀ tl ∈ (s.mapSlices f).slices, P tl := by
  intro tl htl
  obtain ⟨k, hk, rfl⟩ := List.mem_mapIdx.1 htl
  exact h k _ (List.getElem_mem hk)

/-- A property of the VCR that every compare establishes is kept by every effect. -/
theorem Effect.forall_vcr (h : Effect i s u) {P : VcrBits → Prop} (hs : ∀ sl ∈ s.slices, P sl.vcr)
    (hcompare : ∀ f : Nat → Int, (∀ j, f (2 * j) = f (2 * j + 1)) → P (ofVcrBits fun a k => compareZero a (f k))) : ∀ tl ∈ u.slices, P tl.vcr := by
  cases h with
  | vcr _ _ f hf => exact forall_mem_mapSlices fun _ sl _ => hcompare (f sl) (hf sl)
  | reg | acc => exact forall_mem_mapSlices fun _ sl hsl => hs sl hsl
  | input _ _ _ _ e => exact forall_mem_mapSlices (s := s.logIo e) fun _ sl hsl => hs sl hsl
  | store | output => exact hs

/-- An effect, advanced, has moved pc by 4 where that fits (10_state.md R41). -/
theorem Effect.toNat_advance_pc (h : Effect i s u) (hp : PcFits s) : u.advance.pc.toNat = s.pc.toNat + 4 := by
  rw [State.advance_pc, h.pc_eq, BitVec.toNat_add]
  exact Nat.mod_eq_of_lt hp

/-- Every instruction that completes keeps the invariant. -/
theorem exec_keeps_inv {t : State} (hs : Inv s) (h : exec i s = .next t) : Inv t := by
  obtain ⟨hp, u, hu, rfl⟩ := exec_next_effect h
  obtain ⟨-, -, -, -, hlength⟩ := hu.configuration_eq
  constructor
  case someSlice => exact hlength ▸ hs.someSlice
  case memWf => exact hu.mem_wf hs.memWf
  case pcAligned =>
    have haligned := hs.pcAligned
    rw [hu.toNat_advance_pc hp]
    omega
  case vcrPaired => exact hu.forall_vcr hs.vcrPaired fun _ hf => vcrPaired_compare hf
  case vcrExclusive => exact hu.forall_vcr hs.vcrExclusive fun f _ => vcrExclusive_compare f

end

/-- Settles O53: a step that answers a next state is the run of an instruction, which keeps the invariant. -/
theorem everyStepKeepsInvariant : Obligations.EveryStepKeepsInvariant := by
  intro s t hs h
  rcases step_refused_or_exec s with ⟨r, hr⟩ | ⟨i, hi⟩
  · cases hr.symm.trans h
  · exact exec_keeps_inv hs (hi.symm.trans h)

/-- Settles O54: one slice, no memory, pc 0x100, and a VCR without a set bit. -/
theorem resetSatisfiesInvariant : Obligations.ResetSatisfiesInvariant where
  someSlice := by decide
  memWf := rfl
  pcAligned := by decide
  vcrPaired := by simp [State.reset, Slice.reset, VcrPaired, vcrBit]
  vcrExclusive := by simp [State.reset, Slice.reset, VcrExclusive, vcrBit]

/-- Settles O49: memory and IO log field by field of the effect. -/
theorem onlyStoreTouchesMemoryOnlyIoTouchesLog : Obligations.OnlyStoreTouchesMemoryOnlyIoTouchesLog := by
  intro i s t h
  obtain ⟨-, u, hu, rfl⟩ := exec_next_effect h
  exact ⟨fun hi a => congrArg (Memory.read · a) (hu.mem_eq hi), hu.ioLog_eq⟩

/-- Settles O50: no effect touches the registers and the configuration, and advancing keeps them. -/
theorem noInstructionWritesGprTextOrConfiguration : Obligations.NoInstructionWritesGprTextOrConfiguration := by
  intro i s t h
  obtain ⟨-, u, hu, rfl⟩ := exec_next_effect h
  exact hu.configuration_eq

/-- Settles O51: which effects write VCR and accumulator. -/
theorem onlyComparesWriteVcrOnlyTacWritesAcc : Obligations.OnlyComparesWriteVcrOnlyTacWritesAcc := by
  intro i s t h
  obtain ⟨-, u, hu, rfl⟩ := exec_next_effect h
  exact hu.eachSlice_keeps

/-- Settles O55: a fault would be that of an instruction stopped by the VCR, which free values never are. -/
theorem noFaultWhenGapsRunFree : Obligations.NoFaultWhenGapsRunFree := by
  intro s hfree f h
  rcases step_refused_or_exec s with ⟨r, hr⟩ | ⟨i, hi⟩
  · cases hr.symm.trans h
  · obtain ⟨c, -, hc⟩ := exec_fault_iff.1 (hi.symm.trans h)
    rw [condHStops_freeValue hfree] at hc
    cases hc

end Sys2Proof.Machine
end

section
/-! SUPPORT. Which shared operation each instruction is, said once (`exec_shape`), and the statements that compare two runs of one instruction or ask when it completes. -/

namespace Sys2Proof.Machine

/-- The shared operation an instruction's meaning is, and what of the state its result depends on besides the slice: parameters, general-purpose registers, the count of completed instructions. The four load/store instructions stand for themselves. -/
inductive Shape (i : Instr) : Prop where
  | halfToReg {vrt : VReg} {c : Cond} (f : Config.Params → Slice → Nat → Half) (hi : halfCondition? i = some c)
      (h : ∀ s, exec i s = Machine.halfToReg vrt c (f s.params) s)
  | halfToAcc {c : Cond} (f : Config.Params → Slice → Nat → Word) (hi : halfCondition? i = some c)
      (h : ∀ s, exec i s = Machine.halfToAcc c (f s.params) s)
  | byteToReg {vrt : VReg} {c : Cond} (f : Config.Params → Slice → Nat → Byte) (hi : halfCondition? i = none)
      (h : ∀ s, exec i s = Machine.byteToReg vrt c (f s.params) s)
  | byteToAcc {c : Cond} (f : Config.Params → Slice → Nat → Half) (hi : halfCondition? i = none)
      (h : ∀ s, exec i s = Machine.byteToAcc c (f s.params) s)
  | writeReg {vrt : VReg} {r : Refusal} (stops : Config.Params → Bool)
      (f : Vector Word 32 → Config.Params → Nat → Nat → Slice → VecBits) (hi : halfCondition? i = none)
      (h : ∀ s, exec i s = if stops s.params then .refused r else Machine.writeReg vrt (f s.gpr s.params s.retired) s)
  | writeVcr {f : Slice → Nat → Int} (hi : halfCondition? i = none) (h : ∀ s, exec i s = Machine.writeVcr f s)
  | fxvlax (vrt : VReg) (ra rb : GReg) (hi : i = .fxvlax vrt ra rb)
  | fxvstax (vrt : VReg) (ra rb : GReg) (hi : i = .fxvstax vrt ra rb)
  | fxvinx (vrt : VReg) (ra rb : GReg) (hi : i = .fxvinx vrt ra rb)
  | fxvoutx (vrt : VReg) (ra rb : GReg) (hi : i = .fxvoutx vrt ra rb)

section
variable {i : Instr} {vrt : VReg} {c : Cond}

theorem shape_of_halfToReg {f : Slice → Nat → Half} (hi : halfCondition? i = some c) (h : ∀ s, exec i s = halfToReg vrt c f s) : Shape i :=
  .halfToReg (fun _ => f) hi h

theorem shape_of_halfToAcc {f : Slice → Nat → Word} (hi : halfCondition? i = some c) (h : ∀ s, exec i s = halfToAcc c f s) : Shape i :=
  .halfToAcc (fun _ => f) hi h

theorem shape_of_byteToReg {f : Slice → Nat → Byte} (hi : halfCondition? i = none) (h : ∀ s, exec i s = byteToReg vrt c f s) : Shape i :=
  .byteToReg (fun _ => f) hi h

theorem shape_of_byteToAcc {f : Slice → Nat → Half} (hi : halfCondition? i = none) (h : ∀ s, exec i s = byteToAcc c f s) : Shape i :=
  .byteToAcc (fun _ => f) hi h

theorem shape_of_writeReg (f : Vector Word 32 → Nat → Slice → VecBits) (hi : halfCondition? i = none)
    (h : ∀ s, exec i s = writeReg vrt (f s.gpr) s) : Shape i :=
  .writeReg (r := .pcWrap) (fun _ => false) (fun gpr _ _ => f gpr) hi h

end

/-- Every instruction has a shape. -/
theorem exec_shape (i : Instr) : Shape i := by
  cases i with
  | fxvmahm => exact shape_of_halfToReg rfl fun _ => rfl
  | fxvmabm => exact shape_of_byteToReg rfl fun _ => rfl
  | fxvmtacb vra => exact .byteToAcc (fun p sl j => mtacExt p (sl.b vra j)) rfl fun _ => rfl
  | fxvmtach vra => exact .halfToAcc (fun p sl i => mtacExt p (sl.h vra i)) rfl fun _ => rfl
  | fxvmahfs => exact shape_of_halfToReg rfl fun _ => rfl
  | fxvmabfs => exact shape_of_byteToReg rfl fun _ => rfl
  | fxvmtacbf => exact shape_of_byteToAcc rfl fun _ => rfl
  | fxvmtachf => exact shape_of_halfToAcc rfl fun _ => rfl
  | fxvmatachm => exact shape_of_halfToAcc rfl fun _ => rfl
  | fxvmatacbm => exact shape_of_byteToAcc rfl fun _ => rfl
  | fxvmatachfs => exact shape_of_halfToAcc rfl fun _ => rfl
  | fxvmatacbfs => exact shape_of_byteToAcc rfl fun _ => rfl
  | fxvmulhm => exact shape_of_halfToReg rfl fun _ => rfl
  | fxvmulbm => exact shape_of_byteToReg rfl fun _ => rfl
  | fxvmulhfs => exact shape_of_halfToReg rfl fun _ => rfl
  | fxvmulbfs => exact shape_of_byteToReg rfl fun _ => rfl
  | fxvmultachm => exact shape_of_halfToAcc rfl fun _ => rfl
  | fxvmultacbm => exact shape_of_byteToAcc rfl fun _ => rfl
  | fxvmultachfs => exact shape_of_halfToAcc rfl fun _ => rfl
  | fxvmultacbfs => exact shape_of_byteToAcc rfl fun _ => rfl
  | fxvinx vrt ra rb => exact .fxvinx vrt ra rb rfl
  | fxvpckbu vrt vra vrb n =>
    exact shape_of_writeReg (fun _ _ sl => ofBytes fun j =>
      if j < 8 then shiftRight (sl.b vra (2 * j)) n else shiftRight (sl.b vrb (2 * (j - 8))) n) rfl fun _ => rfl
  | fxvoutx vrt ra rb => exact .fxvoutx vrt ra rb rfl
  | fxvpckbl vrt vra vrb n =>
    refine .writeReg (vrt := vrt) (r := .packNotSettled) (fun p => decide (p.onGap = .stop ∧ (p.packMask = .unsettled ∨ p.pckblSecond = .unsettled)))
      (fun _ p _ _ sl => ofBytes fun j => if j < 8 then packLower p (sl.h vra j) n
        else if packSymmetric p then packLower p (sl.h vrb (j - 8)) n else shiftRight (sl.b vrb (2 * (j - 8))) n) rfl fun s => ?_
    simp only [exec, execFxvpckbl, decide_eq_true_eq]
  | fxvsplath vrt ra => exact shape_of_writeReg (fun gpr _ _ => ofHalves fun _ => gpr[ra].extractLsb' 0 16) rfl fun _ => rfl
  | fxvsplatb vrt ra => exact shape_of_writeReg (fun gpr _ _ => ofBytes fun _ => gpr[ra].extractLsb' 0 8) rfl fun _ => rfl
  | fxvupckbr vrt vra vrb n =>
    refine .writeReg (vrt := vrt) (r := .unpackNotDefined) (fun p => decide (p.onGap = .stop)) (fun _ _ m k sl => Config.unpackRight m k vrt vra vrb n sl.vr) rfl fun s => ?_
    simp only [exec, execFxvupckbr, decide_eq_true_eq]
  | fxvupckbl vrt vra vrb n =>
    refine .writeReg (vrt := vrt) (r := .unpackNotDefined) (fun p => decide (p.onGap = .stop)) (fun _ _ m k sl => Config.unpackLeft m k vrt vra vrb n sl.vr) rfl fun s => ?_
    simp only [exec, execFxvupckbl, decide_eq_true_eq]
  | fxvcmphm => exact .writeVcr rfl fun _ => rfl
  | fxvcmpb => exact .writeVcr rfl fun _ => rfl
  | fxvshh vrt vra n => exact shape_of_writeReg (fun _ _ sl => ofHalves fun i => shiftLeft (sl.h vra i) n) rfl fun _ => rfl
  | fxvshb vrt vra n => exact shape_of_writeReg (fun _ _ sl => ofBytes fun j => shiftLeft (sl.b vra j) n) rfl fun _ => rfl
  | fxvsel vrt vra vrb c =>
    exact shape_of_writeReg (fun _ _ sl => ofBytes fun j => if condB c sl.vcr j then sl.b vrb j else sl.b vra j) rfl fun _ => rfl
  | fxvsubhm => exact shape_of_halfToReg rfl fun _ => rfl
  | fxvsubbm => exact shape_of_byteToReg rfl fun _ => rfl
  | fxvsubhfs vrt vra vrb => exact .halfToReg (fun p sl i => upper (n := 16) (subSatFract p (sl.h vra i) (sl.h vrb i))) rfl fun _ => rfl
  | fxvsubbfs vrt vra vrb => exact .byteToReg (fun p sl j => upper (n := 8) (subSatFract p (sl.b vra j) (sl.b vrb j))) rfl fun _ => rfl
  | fxvaddactachm => exact shape_of_halfToAcc rfl fun _ => rfl
  | fxvaddactacb => exact shape_of_byteToAcc rfl fun _ => rfl
  | fxvaddactachf vra => exact .halfToAcc (fun p sl i => addSat (fext p (sl.h vra i)) (sl.aw i)) rfl fun _ => rfl
  | fxvaddactacbf vra => exact .byteToAcc (fun p sl j => addSat (fext p (sl.b vra j)) (sl.ah j)) rfl fun _ => rfl
  | fxvaddachm => exact shape_of_halfToReg rfl fun _ => rfl
  | fxvaddacbm => exact shape_of_byteToReg rfl fun _ => rfl
  | fxvaddachfs vrt vra => exact .halfToReg (fun p sl i => upper (n := 16) (addSat (fext p (sl.h vra i)) (sl.aw i))) rfl fun _ => rfl
  | fxvaddacbfs vrt vra => exact .byteToReg (fun p sl j => upper (n := 8) (addSat (fext p (sl.b vra j)) (sl.ah j))) rfl fun _ => rfl
  | fxvaddtachm => exact shape_of_halfToAcc rfl fun _ => rfl
  | fxvaddtacb => exact shape_of_byteToAcc rfl fun _ => rfl
  | fxvaddhm => exact shape_of_halfToReg rfl fun _ => rfl
  | fxvaddbm => exact shape_of_byteToReg rfl fun _ => rfl
  | fxvaddhfs vrt vra vrb =>
    exact .halfToReg (fun p sl i => upper (n := 16) (addSat (fext p (sl.h vra i)) (fext p (sl.h vrb i)))) rfl fun _ => rfl
  | fxvaddbfs vrt vra vrb =>
    exact .byteToReg (fun p sl j => upper (n := 8) (addSat (fext p (sl.b vra j)) (fext p (sl.b vrb j)))) rfl fun _ => rfl
  | fxvlax vrt ra rb => exact .fxvlax vrt ra rb rfl
  | fxvstax vrt ra rb => exact .fxvstax vrt ra rb rfl

/-! The stop at the end of the address space, against the run of the same instruction with pc 0. -/

/-- `r0` is an answer with pc 0 and `r` one where pc + 4 passes 2^32: a completion becomes pc_wrap, and any other stop stays, because pc_wrap is the last check (60_exceptions.md R246). -/
def PcWrapLast (r0 r : Result) : Prop :=
  (∀ t, r0 = .next t → r = .refused .pcWrap) ∧ (∀ e, r0 = .fault e → r = .fault e) ∧ (∀ q, r0 = .refused q → r = .refused q)

section
variable {s0 s : State} {vrt : VReg} {c : Cond}

theorem pcWrapLast_fault (e : Fault) : PcWrapLast (.fault e) (.fault e) := by
  simp [PcWrapLast]

theorem pcWrapLast_refused (q : Refusal) : PcWrapLast (.refused q) (.refused q) := by
  simp [PcWrapLast]

/-- Where `finish` is reached at both, the one completes and the other is pc_wrap. -/
theorem pcWrapLast_finish (h0 : PcFits s0) (h : ¬PcFits s) : PcWrapLast s0.finish s.finish := by
  simp [PcWrapLast, finish_of_fits h0, finish_refused h]

theorem pcWrapLast_halfToReg {f0 f : Slice → Nat → Half} (hc : condHStops s0 c = condHStops s c) (h0 : PcFits s0) (h : ¬PcFits s) :
    PcWrapLast (halfToReg vrt c f0 s0) (halfToReg vrt c f s) := by
  unfold halfToReg
  rw [hc]
  split
  · exact pcWrapLast_fault _
  · exact pcWrapLast_finish h0 h

theorem pcWrapLast_halfToAcc {f0 f : Slice → Nat → Word} (hc : condHStops s0 c = condHStops s c) (h0 : PcFits s0) (h : ¬PcFits s) :
    PcWrapLast (halfToAcc c f0 s0) (halfToAcc c f s) := by
  unfold halfToAcc
  rw [hc]
  split
  · exact pcWrapLast_fault _
  · exact pcWrapLast_finish h0 h

end

/-- pc_wrap is the last check of every instruction. -/
theorem exec_pcWrapLast (i : Instr) {s : State} (h : ¬PcFits s) : PcWrapLast (exec i { s with pc := 0 }) (exec i s) := by
  have h0 : PcFits { s with pc := 0 } := by simp [PcFits]
  cases exec_shape i with
  | halfToReg f _ he => rw [he, he]; exact pcWrapLast_halfToReg rfl h0 h
  | halfToAcc f _ he => rw [he, he]; exact pcWrapLast_halfToAcc rfl h0 h
  | byteToReg f _ he => rw [he, he]; exact pcWrapLast_finish h0 h
  | byteToAcc f _ he => rw [he, he]; exact pcWrapLast_finish h0 h
  | writeVcr _ he => rw [he, he]; exact pcWrapLast_finish h0 h
  | writeReg stops f _ he =>
    rw [he, he]
    split
    · exact pcWrapLast_refused _
    · exact pcWrapLast_finish h0 h
  | fxvlax vrt ra rb hi =>
    subst hi
    cases hm : memCheck s (effectiveAddress s ra rb).toNat false with
    | some r => rw [exec_fxvlax_refused hm, exec_fxvlax_refused (s := { s with pc := 0 }) hm]; exact pcWrapLast_refused r
    | none => rw [exec_fxvlax_passed hm, exec_fxvlax_passed (s := { s with pc := 0 }) hm]; exact pcWrapLast_finish h0 h
  | fxvstax vrt ra rb hi =>
    subst hi
    cases hm : memCheck s (effectiveAddress s ra rb).toNat true with
    | some r => rw [exec_fxvstax_refused hm, exec_fxvstax_refused (s := { s with pc := 0 }) hm]; exact pcWrapLast_refused r
    | none => rw [exec_fxvstax_passed hm, exec_fxvstax_passed (s := { s with pc := 0 }) hm]; exact pcWrapLast_finish h0 h
  | fxvinx vrt ra rb hi =>
    subst hi
    by_cases hio : Exists s.platform.io (effectiveAddress s ra rb).toNat
    · rw [exec_fxvinx_passed hio, exec_fxvinx_passed (s := { s with pc := 0 }) hio]; exact pcWrapLast_finish h0 h
    · rw [exec_fxvinx_refused hio, exec_fxvinx_refused (s := { s with pc := 0 }) hio]; exact pcWrapLast_refused _
  | fxvoutx vrt ra rb hi =>
    subst hi
    by_cases hio : Exists s.platform.io (effectiveAddress s ra rb).toNat
    · rw [exec_fxvoutx_passed hio, exec_fxvoutx_passed (s := { s with pc := 0 }) hio]; exact pcWrapLast_finish h0 h
    · rw [exec_fxvoutx_refused hio, exec_fxvoutx_refused (s := { s with pc := 0 }) hio]; exact pcWrapLast_refused _

/-- Settles O48: a completed instruction has advanced its effect, and pc_wrap is the last check. -/
theorem everyInstructionAdvancesPc : Obligations.EveryInstructionAdvancesPc := by
  refine ⟨fun i s t h => ?_, fun i _ => exec_pcWrapLast i⟩
  obtain ⟨hp, u, hu, rfl⟩ := exec_next_effect h
  exact ⟨hp, hu.toNat_advance_pc hp, by rw [State.advance_retired, hu.retired_eq]⟩

/-- A slice that is the same in two states, and on which two operations agree, is the same after them. -/
theorem mapSlices_getElem?_eq {s s' : State} {f f' : Nat → Slice → Slice} {k : Nat} {sl : Slice} (hk : s.slices[k]? = some sl)
    (hk' : s'.slices[k]? = some sl) (hf : f k sl = f' k sl) : (s.mapSlices f).slices[k]? = (s'.mapSlices f').slices[k]? := by
  rw [State.mapSlices_getElem?, State.mapSlices_getElem?, hk, hk', Option.map_some, Option.map_some, hf]

/-- Settles O52: each shared operation makes slice k of the old slice k, the parameters, the registers and the count; a store and an output leave the slices alone. -/
theorem slicesDoNotInfluenceEachOther : Obligations.SlicesDoNotInfluenceEachOther := by
  intro i s s' t t' k sl hi hgpr hparams hretired hk hk' ht ht'
  cases exec_shape i with
  | halfToReg f _ he =>
    rw [he] at ht ht'
    obtain ⟨-, -, rfl⟩ := halfToReg_next_iff.1 ht
    obtain ⟨-, -, rfl⟩ := halfToReg_next_iff.1 ht'
    exact mapSlices_getElem?_eq hk hk' (by rw [hparams, hretired])
  | halfToAcc f _ he =>
    rw [he] at ht ht'
    obtain ⟨-, -, rfl⟩ := halfToAcc_next_iff.1 ht
    obtain ⟨-, -, rfl⟩ := halfToAcc_next_iff.1 ht'
    exact mapSlices_getElem?_eq hk hk' (by rw [hparams, hretired])
  | byteToReg f _ he =>
    rw [he] at ht ht'
    obtain ⟨-, rfl⟩ := byteToReg_next_iff.1 ht
    obtain ⟨-, rfl⟩ := byteToReg_next_iff.1 ht'
    exact mapSlices_getElem?_eq hk hk' (by rw [hparams])
  | byteToAcc f _ he =>
    rw [he] at ht ht'
    obtain ⟨-, rfl⟩ := byteToAcc_next_iff.1 ht
    obtain ⟨-, rfl⟩ := byteToAcc_next_iff.1 ht'
    exact mapSlices_getElem?_eq hk hk' (by rw [hparams])
  | writeVcr _ he =>
    rw [he] at ht ht'
    obtain ⟨-, rfl⟩ := writeVcr_next_iff.1 ht
    obtain ⟨-, rfl⟩ := writeVcr_next_iff.1 ht'
    exact mapSlices_getElem?_eq hk hk' rfl
  | writeReg stops f _ he =>
    rw [he] at ht ht'
    split at ht
    · cases ht
    · split at ht'
      · cases ht'
      · obtain ⟨-, rfl⟩ := writeReg_next_iff.1 ht
        obtain ⟨-, rfl⟩ := writeReg_next_iff.1 ht'
        exact mapSlices_getElem?_eq hk hk' (by rw [hgpr, hparams, hretired])
  | fxvlax vrt ra rb e => exact absurd e (hi vrt ra rb).1
  | fxvinx vrt ra rb e => exact absurd e (hi vrt ra rb).2
  | fxvstax vrt ra rb e =>
    subst e
    obtain ⟨-, -, rfl⟩ := exec_fxvstax_next_iff.1 ht
    obtain ⟨-, -, rfl⟩ := exec_fxvstax_next_iff.1 ht'
    exact hk.trans hk'.symm
  | fxvoutx vrt ra rb e =>
    subst e
    obtain ⟨-, -, rfl⟩ := exec_fxvoutx_next_iff.1 ht
    obtain ⟨-, -, rfl⟩ := exec_fxvoutx_next_iff.1 ht'
    exact hk.trans hk'.symm

/-- When the VCR stops a halfword-conditional instruction (10_state.md R38, D11). -/
theorem condHStops_iff {s : State} {c : Cond} :
    condHStops s c = true ↔ s.params.onGap = .stop ∧ s.params.vcrHwRead = .unspecified ∧ ReadsMixed s c := by
  simp [condHStops, anyMixed_iff, and_assoc]

/-- A halfword-conditional instruction that the VCR does not stop completes where pc + 4 fits. -/
theorem exec_half_completes {i : Instr} {c : Cond} {s : State} (hi : halfCondition? i = some c) (hc : condHStops s c = false) (hp : PcFits s) :
    ∃ t, exec i s = .next t := by
  cases exec_shape i with
  | halfToReg f hi' he =>
    cases hi.symm.trans hi'
    exact ⟨_, (he s).trans (halfToReg_next_iff.2 ⟨hc, hp, rfl⟩)⟩
  | halfToAcc f hi' he =>
    cases hi.symm.trans hi'
    exact ⟨_, (he s).trans (halfToAcc_next_iff.2 ⟨hc, hp, rfl⟩)⟩
  | byteToReg _ hi' | byteToAcc _ hi' | writeReg _ _ hi' | writeVcr hi' => cases hi.symm.trans hi'
  | fxvlax _ _ _ e | fxvstax _ _ _ e | fxvinx _ _ _ e | fxvoutx _ _ _ e => cases e; cases hi

/-- Settles O56: `exec` faults exactly where the VCR stops a halfword-conditional instruction, and C = 0 reads no field. -/
theorem mixedConditionFaultsUnderStop : Obligations.MixedConditionFaultsUnderStop := by
  refine ⟨fun i c s hi => ?_, fun i s hi hp => exec_half_completes hi (condHStops_always s) hp, fun i s e h => ?_⟩
  · rw [exec_fault_iff, hi]
    simp only [Option.some.injEq, exists_eq_left']
    exact condHStops_iff
  · obtain ⟨c, hi, -⟩ := exec_fault_iff.1 h
    exact ⟨c, hi⟩

end Sys2Proof.Machine
end
